-- ==== Sys2Proof/Word.lean ====
section
/-! DEFINITION. The word types of the hardware (spec/00_scope.md R7, R10; spec/10_state.md R21). -/

namespace Sys2Proof

/-- `W32`, a 32-bit word: XLEN = 32, instruction width = 32 (R7, R10). -/
abbrev Word := BitVec 32

/-- The addressable unit of data memory (R7). -/
abbrev Byte := BitVec 8

/-- The number of a general register, 0 to 31 (R21). -/
abbrev Reg := Fin 32

end Sys2Proof
end

