-- ==== Sys2Proof/Config.lean ====
section
/-! DEFINITION. The constants of a run that the host supplies before cycle 1 (spec/00_scope.md R8,
spec/70_reset_and_hazards.md R343). No instruction and no tick writes them. The spec leaves none of them a free
value: they are parameters, so every statement quantifies over them. -/

namespace Sys2Proof

/-- Data memory as data: the bytes that are not zero, addresses strictly rising (log 6). A byte that is not
listed reads as 0, the default contents of R33 (decision D11). -/
abbrev Memory := List Host.Cell

/-- The parameters of R8. `N_CYCLES` is not among them: it is how many steps the host takes (log 22). -/
structure RunConfig where
  /-- `FORWARDING`: "a static run configuration, not a runtime input" (R8, D28). -/
  forwarding : Bool
  /-- `IMEM`, "a sequence of 32-bit words supplied in order"; its length is `IMEM_WORDS` (R8, R34). -/
  imem : List Word
  /-- `DMEM_SIZE`, the size of the data memory in bytes (R8, R52). -/
  dmemSize : Nat
  /-- `DMEM_INIT`, the data memory's contents at reset (R8, R33). -/
  dmemInit : Memory
  deriving DecidableEq, Repr

/-- The parameters behind `State.reset`. DESIGN CHOICE, unsafe (log 3): the spec gives FORWARDING and DMEM_SIZE no
value; 256 bytes is the size its test vectors use, forwarding on is the policy its scenarios are read under (C2).
The image is empty and DMEM_INIT is all zero (R33). No statement rests on these values. -/
def RunConfig.default : RunConfig :=
  { forwarding := true, imem := [], dmemSize := 256, dmemInit := [] }

end Sys2Proof
end

