-- ==== Sys2Proof/Syntax.lean ====
section
/-! DEFINITION. The instructions: one constructor of `Instr` per row of spec/opcode_table.json, in its order, with
the operands of the structured instruction record of spec/30_encoding.md R82. -/

namespace Sys2Proof

/-- The 37 defined instructions (R3). `imm` is R82's "sign-extended 32-bit immediate"; which values of it an
encoding can hold is `Instr.wf`. INVALID has no row in the table and is no constructor (log 9). -/
inductive Instr where
  -- R form: rd, rs1, rs2 (R84)
  | add (rd rs1 rs2 : Reg)
  | sub (rd rs1 rs2 : Reg)
  | sll (rd rs1 rs2 : Reg)
  | slt (rd rs1 rs2 : Reg)
  | sltu (rd rs1 rs2 : Reg)
  | xor (rd rs1 rs2 : Reg)
  | srl (rd rs1 rs2 : Reg)
  | sra (rd rs1 rs2 : Reg)
  | or (rd rs1 rs2 : Reg)
  | and (rd rs1 rs2 : Reg)
  -- I form, arithmetic and logic: rd, rs1, imm (R85)
  | addi (rd rs1 : Reg) (imm : Word)
  | slti (rd rs1 : Reg) (imm : Word)
  | sltiu (rd rs1 : Reg) (imm : Word)
  | xori (rd rs1 : Reg) (imm : Word)
  | ori (rd rs1 : Reg) (imm : Word)
  | andi (rd rs1 : Reg) (imm : Word)
  | slli (rd rs1 : Reg) (imm : Word)
  | srli (rd rs1 : Reg) (imm : Word)
  | srai (rd rs1 : Reg) (imm : Word)
  -- U form: rd, imm (R88)
  | lui (rd : Reg) (imm : Word)
  | auipc (rd : Reg) (imm : Word)
  -- I form, loads: rd, imm(rs1) (R85)
  | lb (rd rs1 : Reg) (imm : Word)
  | lh (rd rs1 : Reg) (imm : Word)
  | lw (rd rs1 : Reg) (imm : Word)
  | lbu (rd rs1 : Reg) (imm : Word)
  | lhu (rd rs1 : Reg) (imm : Word)
  -- S form, stores: rs2, imm(rs1) (R86)
  | sb (rs1 rs2 : Reg) (imm : Word)
  | sh (rs1 rs2 : Reg) (imm : Word)
  | sw (rs1 rs2 : Reg) (imm : Word)
  -- B form, branches: rs1, rs2, offset (R87)
  | beq (rs1 rs2 : Reg) (imm : Word)
  | bne (rs1 rs2 : Reg) (imm : Word)
  | blt (rs1 rs2 : Reg) (imm : Word)
  | bge (rs1 rs2 : Reg) (imm : Word)
  | bltu (rs1 rs2 : Reg) (imm : Word)
  | bgeu (rs1 rs2 : Reg) (imm : Word)
  -- I form, JALR: rd, rs1, imm (R85)
  | jalr (rd rs1 : Reg) (imm : Word)
  -- J form: rd, offset (R89)
  | jal (rd : Reg) (imm : Word)
  deriving DecidableEq, Repr

/-- The format tag of R82; `none` is INVALID's (decision D2). -/
inductive Format where
  | r | i | s | b | u | j | none
  deriving DecidableEq, Repr

/-- Why a word is INVALID: the decoder's rejection by name, one reason per rule of spec/30_encoding.md section 4. -/
inductive Rejection where
  /-- the opcode field is none of the nine of R96 -/
  | opcode (opc : BitVec 7)
  /-- an R-form word whose (funct7, funct3) pair R97 does not list -/
  | regReg (funct7 : BitVec 7) (funct3 : BitVec 3)
  /-- a shift-immediate whose `w[31:25]` R98 does not list -/
  | shiftImm (top : BitVec 7) (funct3 : BitVec 3)
  /-- a load funct3 that R99 does not list -/
  | load (funct3 : BitVec 3)
  /-- a JALR word with funct3 other than 0 (R100) -/
  | jalr (funct3 : BitVec 3)
  /-- a store funct3 that R101 does not list -/
  | store (funct3 : BitVec 3)
  /-- a branch funct3 that R102 does not list -/
  | branch (funct3 : BitVec 3)
  deriving DecidableEq, Repr

/-- The "instruction snapshot" that ID/EX, EX/MEM and MEM/WB carry (R35): the raw word and what it decodes to.
`instr = none` is the INVALID instruction, whose record has no usable field (R82). -/
structure Snapshot where
  raw : Word
  instr : Option Instr
  deriving DecidableEq, Repr

end Sys2Proof
end

