-- ==== Sys2Proof/WellFormed.lean ====
section
/-! DEFINITION. Which immediates an instruction's encoding can hold: R108's "whose immediate is in its format's
range (and, for shift-immediates, whose `imm[11:5]` is the selector of rule R98)". -/

namespace Sys2Proof

/-- The I and S range, -2048 to 2047: the word is the sign extension of its low 12 bits (R90, R91). -/
def fitsImm12 (imm : Word) : Bool := imm == (imm.extractLsb' 0 12).signExtend 32

/-- The B range, even, -4096 to 4094 (R92). -/
def fitsImm13 (imm : Word) : Bool :=
  imm == (imm.extractLsb' 0 13).signExtend 32 && imm.extractLsb' 0 1 == 0#1

/-- The J range, even, -1048576 to 1048574 (R94). -/
def fitsImm21 (imm : Word) : Bool :=
  imm == (imm.extractLsb' 0 21).signExtend 32 && imm.extractLsb' 0 1 == 0#1

/-- The U immediates: the low 12 bits are zero (R93). -/
def fitsUpper (imm : Word) : Bool := imm.extractLsb' 0 12 == 0#12

/-- The immediates of SLLI and SRLI: the amount 0 to 31 under the selector 0b0000000 (R95, R98). -/
def fitsShift (imm : Word) : Bool := imm.extractLsb' 5 27 == 0#27

/-- The immediates of SRAI: the amount 0 to 31 under the selector 0b0100000, so 0x400 + amount (R95, R98). -/
def fitsShiftArith (imm : Word) : Bool := imm.extractLsb' 5 27 == 0b0100000#27

/-- An instruction that its encoding can hold (R108). -/
def Instr.wf : Instr → Bool
  | .add _ _ _ | .sub _ _ _ | .sll _ _ _ | .slt _ _ _ | .sltu _ _ _ => true
  | .xor _ _ _ | .srl _ _ _ | .sra _ _ _ | .or _ _ _ | .and _ _ _ => true
  | .addi _ _ imm | .slti _ _ imm | .sltiu _ _ imm => fitsImm12 imm
  | .xori _ _ imm | .ori _ _ imm | .andi _ _ imm => fitsImm12 imm
  | .slli _ _ imm | .srli _ _ imm => fitsShift imm
  | .srai _ _ imm => fitsShiftArith imm
  | .lb _ _ imm | .lh _ _ imm | .lw _ _ imm | .lbu _ _ imm | .lhu _ _ imm => fitsImm12 imm
  | .sb _ _ imm | .sh _ _ imm | .sw _ _ imm => fitsImm12 imm
  | .beq _ _ imm | .bne _ _ imm | .blt _ _ imm => fitsImm13 imm
  | .bge _ _ imm | .bltu _ _ imm | .bgeu _ _ imm => fitsImm13 imm
  | .lui _ imm | .auipc _ imm => fitsUpper imm
  | .jal _ imm => fitsImm21 imm
  | .jalr _ _ imm => fitsImm12 imm

end Sys2Proof
end

