-- ==== Sys2Proof/Decode.lean ====
section
/-! DEFINITION. The instruction decoder (spec/30_encoding.md R80 to R107), total on every word; the record views of
R82; and the encoder of R108, written from the same tables. The numbers are the RV32I ones (decision D1, log 8). -/

namespace Sys2Proof

/-! Fields of a word (R83) and the five immediates (R90 to R94). -/

def opcodeField (w : Word) : BitVec 7 := w.extractLsb' 0 7
def funct3Field (w : Word) : BitVec 3 := w.extractLsb' 12 3
def funct7Field (w : Word) : BitVec 7 := w.extractLsb' 25 7

/-- The register number in the five bits `w[lo+4:lo]` (R83). -/
def regField (w : Word) (lo : Nat) : Reg := ⟨(w.extractLsb' lo 5).toNat, (w.extractLsb' lo 5).isLt⟩

def rdField (w : Word) : Reg := regField w 7
def rs1Field (w : Word) : Reg := regField w 15
def rs2Field (w : Word) : Reg := regField w 20

/-- R90. -/
def immI (w : Word) : Word := (w.extractLsb' 20 12).signExtend 32

/-- R91. -/
def immS (w : Word) : Word := (w.extractLsb' 25 7 ++ w.extractLsb' 7 5).signExtend 32

/-- R92. -/
def immB (w : Word) : Word :=
  (w.extractLsb' 31 1 ++ w.extractLsb' 7 1 ++ w.extractLsb' 25 6 ++ w.extractLsb' 8 4 ++ 0#1).signExtend 32

/-- R93. -/
def immU (w : Word) : Word := w.extractLsb' 12 20 ++ 0#12

/-- R94. -/
def immJ (w : Word) : Word :=
  (w.extractLsb' 31 1 ++ w.extractLsb' 12 8 ++ w.extractLsb' 20 1 ++ w.extractLsb' 21 10 ++ 0#1).signExtend 32

/-! The groups of the opcode map (R97 to R102). -/

/-- R97. -/
def decodeRegReg (w : Word) : Except Rejection Instr :=
  let rd := rdField w; let rs1 := rs1Field w; let rs2 := rs2Field w
  match funct7Field w, funct3Field w with
  | 0b0000000#7, 0b000#3 => .ok (.add rd rs1 rs2)
  | 0b0100000#7, 0b000#3 => .ok (.sub rd rs1 rs2)
  | 0b0000000#7, 0b001#3 => .ok (.sll rd rs1 rs2)
  | 0b0000000#7, 0b010#3 => .ok (.slt rd rs1 rs2)
  | 0b0000000#7, 0b011#3 => .ok (.sltu rd rs1 rs2)
  | 0b0000000#7, 0b100#3 => .ok (.xor rd rs1 rs2)
  | 0b0000000#7, 0b101#3 => .ok (.srl rd rs1 rs2)
  | 0b0100000#7, 0b101#3 => .ok (.sra rd rs1 rs2)
  | 0b0000000#7, 0b110#3 => .ok (.or rd rs1 rs2)
  | 0b0000000#7, 0b111#3 => .ok (.and rd rs1 rs2)
  | f7, f3 => .error (.regReg f7 f3)

/-- R98. -/
def decodeRegImm (w : Word) : Except Rejection Instr :=
  let rd := rdField w; let rs1 := rs1Field w; let imm := immI w
  match funct3Field w with
  | 0b000#3 => .ok (.addi rd rs1 imm)
  | 0b010#3 => .ok (.slti rd rs1 imm)
  | 0b011#3 => .ok (.sltiu rd rs1 imm)
  | 0b100#3 => .ok (.xori rd rs1 imm)
  | 0b110#3 => .ok (.ori rd rs1 imm)
  | 0b111#3 => .ok (.andi rd rs1 imm)
  | 0b001#3 =>
    match funct7Field w with
    | 0b0000000#7 => .ok (.slli rd rs1 imm)
    | f7 => .error (.shiftImm f7 0b001#3)
  | f3 => -- 0b101, the one value left
    match funct7Field w with
    | 0b0000000#7 => .ok (.srli rd rs1 imm)
    | 0b0100000#7 => .ok (.srai rd rs1 imm)
    | f7 => .error (.shiftImm f7 f3)

/-- R99. -/
def decodeLoad (w : Word) : Except Rejection Instr :=
  let rd := rdField w; let rs1 := rs1Field w; let imm := immI w
  match funct3Field w with
  | 0b000#3 => .ok (.lb rd rs1 imm)
  | 0b001#3 => .ok (.lh rd rs1 imm)
  | 0b010#3 => .ok (.lw rd rs1 imm)
  | 0b100#3 => .ok (.lbu rd rs1 imm)
  | 0b101#3 => .ok (.lhu rd rs1 imm)
  | f3 => .error (.load f3)

/-- R100. -/
def decodeJalr (w : Word) : Except Rejection Instr :=
  match funct3Field w with
  | 0b000#3 => .ok (.jalr (rdField w) (rs1Field w) (immI w))
  | f3 => .error (.jalr f3)

/-- R101. -/
def decodeStore (w : Word) : Except Rejection Instr :=
  let rs1 := rs1Field w; let rs2 := rs2Field w; let imm := immS w
  match funct3Field w with
  | 0b000#3 => .ok (.sb rs1 rs2 imm)
  | 0b001#3 => .ok (.sh rs1 rs2 imm)
  | 0b010#3 => .ok (.sw rs1 rs2 imm)
  | f3 => .error (.store f3)

/-- R102. -/
def decodeBranch (w : Word) : Except Rejection Instr :=
  let rs1 := rs1Field w; let rs2 := rs2Field w; let imm := immB w
  match funct3Field w with
  | 0b000#3 => .ok (.beq rs1 rs2 imm)
  | 0b001#3 => .ok (.bne rs1 rs2 imm)
  | 0b100#3 => .ok (.blt rs1 rs2 imm)
  | 0b101#3 => .ok (.bge rs1 rs2 imm)
  | 0b110#3 => .ok (.bltu rs1 rs2 imm)
  | 0b111#3 => .ok (.bgeu rs1 rs2 imm)
  | f3 => .error (.branch f3)

/-- `Decode(w)` (R96, R103, R107). A rejected word is INVALID (R104). -/
def decode (w : Word) : Except Rejection Instr :=
  match opcodeField w with
  | 0x33#7 => decodeRegReg w
  | 0x13#7 => decodeRegImm w
  | 0x03#7 => decodeLoad w
  | 0x67#7 => decodeJalr w
  | 0x23#7 => decodeStore w
  | 0x63#7 => decodeBranch w
  | 0x37#7 => .ok (.lui (rdField w) (immU w))
  | 0x17#7 => .ok (.auipc (rdField w) (immU w))
  | 0x6F#7 => .ok (.jal (rdField w) (immJ w))
  | opc => .error (.opcode opc)

/-- The instruction a word stands for, `none` for INVALID (R104). -/
def decodeInstr (w : Word) : Option Instr := (decode w).toOption

/-- The snapshot of a raw word: "`Decode(raw)`, which is a pure function of `raw`" (R35, R81). -/
def snapshot (w : Word) : Snapshot := { raw := w, instr := decodeInstr w }

/-- The host's question: the instruction whose table-numbered bits are `w`. Every instruction is one 32-bit word
(R80), fetched whole (R58), so there is no byte order in it. -/
def decodeTableWord (nbits w : Nat) : Option Instr :=
  decodeInstr (BitVec.ofNat 32 (w % 2 ^ nbits))

/-! The views of R82's record: format, operand indices (`none` is "absent", R15), immediate. -/

def Instr.fmt : Instr → Format
  | .add _ _ _ | .sub _ _ _ | .sll _ _ _ | .slt _ _ _ | .sltu _ _ _ => .r
  | .xor _ _ _ | .srl _ _ _ | .sra _ _ _ | .or _ _ _ | .and _ _ _ => .r
  | .addi _ _ _ | .slti _ _ _ | .sltiu _ _ _ | .xori _ _ _ | .ori _ _ _ | .andi _ _ _ => .i
  | .slli _ _ _ | .srli _ _ _ | .srai _ _ _ => .i
  | .lb _ _ _ | .lh _ _ _ | .lw _ _ _ | .lbu _ _ _ | .lhu _ _ _ => .i
  | .sb _ _ _ | .sh _ _ _ | .sw _ _ _ => .s
  | .beq _ _ _ | .bne _ _ _ | .blt _ _ _ | .bge _ _ _ | .bltu _ _ _ | .bgeu _ _ _ => .b
  | .lui _ _ | .auipc _ _ => .u
  | .jal _ _ => .j
  | .jalr _ _ _ => .i

def Instr.rd : Instr → Option Reg
  | .add d _ _ | .sub d _ _ | .sll d _ _ | .slt d _ _ | .sltu d _ _ => some d
  | .xor d _ _ | .srl d _ _ | .sra d _ _ | .or d _ _ | .and d _ _ => some d
  | .addi d _ _ | .slti d _ _ | .sltiu d _ _ | .xori d _ _ | .ori d _ _ | .andi d _ _ => some d
  | .slli d _ _ | .srli d _ _ | .srai d _ _ => some d
  | .lb d _ _ | .lh d _ _ | .lw d _ _ | .lbu d _ _ | .lhu d _ _ => some d
  | .sb _ _ _ | .sh _ _ _ | .sw _ _ _ => none
  | .beq _ _ _ | .bne _ _ _ | .blt _ _ _ | .bge _ _ _ | .bltu _ _ _ | .bgeu _ _ _ => none
  | .lui d _ | .auipc d _ => some d
  | .jal d _ => some d
  | .jalr d _ _ => some d

def Instr.rs1 : Instr → Option Reg
  | .add _ a _ | .sub _ a _ | .sll _ a _ | .slt _ a _ | .sltu _ a _ => some a
  | .xor _ a _ | .srl _ a _ | .sra _ a _ | .or _ a _ | .and _ a _ => some a
  | .addi _ a _ | .slti _ a _ | .sltiu _ a _ | .xori _ a _ | .ori _ a _ | .andi _ a _ => some a
  | .slli _ a _ | .srli _ a _ | .srai _ a _ => some a
  | .lb _ a _ | .lh _ a _ | .lw _ a _ | .lbu _ a _ | .lhu _ a _ => some a
  | .sb a _ _ | .sh a _ _ | .sw a _ _ => some a
  | .beq a _ _ | .bne a _ _ | .blt a _ _ | .bge a _ _ | .bltu a _ _ | .bgeu a _ _ => some a
  | .lui _ _ | .auipc _ _ => none
  | .jal _ _ => none
  | .jalr _ a _ => some a

def Instr.rs2 : Instr → Option Reg
  | .add _ _ b | .sub _ _ b | .sll _ _ b | .slt _ _ b | .sltu _ _ b => some b
  | .xor _ _ b | .srl _ _ b | .sra _ _ b | .or _ _ b | .and _ _ b => some b
  | .addi _ _ _ | .slti _ _ _ | .sltiu _ _ _ | .xori _ _ _ | .ori _ _ _ | .andi _ _ _ => none
  | .slli _ _ _ | .srli _ _ _ | .srai _ _ _ => none
  | .lb _ _ _ | .lh _ _ _ | .lw _ _ _ | .lbu _ _ _ | .lhu _ _ _ => none
  | .sb _ b _ | .sh _ b _ | .sw _ b _ => some b
  | .beq _ b _ | .bne _ b _ | .blt _ b _ | .bge _ b _ | .bltu _ b _ | .bgeu _ b _ => some b
  | .lui _ _ | .auipc _ _ => none
  | .jal _ _ => none
  | .jalr _ _ _ => none

def Instr.imm : Instr → Word
  | .add _ _ _ | .sub _ _ _ | .sll _ _ _ | .slt _ _ _ | .sltu _ _ _ => 0
  | .xor _ _ _ | .srl _ _ _ | .sra _ _ _ | .or _ _ _ | .and _ _ _ => 0
  | .addi _ _ m | .slti _ _ m | .sltiu _ _ m | .xori _ _ m | .ori _ _ m | .andi _ _ m => m
  | .slli _ _ m | .srli _ _ m | .srai _ _ m => m
  | .lb _ _ m | .lh _ _ m | .lw _ _ m | .lbu _ _ m | .lhu _ _ m => m
  | .sb _ _ m | .sh _ _ m | .sw _ _ m => m
  | .beq _ _ m | .bne _ _ m | .blt _ _ m | .bge _ _ m | .bltu _ _ m | .bgeu _ _ m => m
  | .lui _ m | .auipc _ m => m
  | .jal _ m => m
  | .jalr _ _ m => m

/-- "An INVALID opcode carries no usable fields": format `none`, every field absent, immediate 0 (R82, D2). -/
def Snapshot.fmt (i : Snapshot) : Format := (i.instr.map Instr.fmt).getD .none
def Snapshot.rd (i : Snapshot) : Option Reg := i.instr.bind Instr.rd
def Snapshot.rs1 (i : Snapshot) : Option Reg := i.instr.bind Instr.rs1
def Snapshot.rs2 (i : Snapshot) : Option Reg := i.instr.bind Instr.rs2
def Snapshot.imm (i : Snapshot) : Word := (i.instr.map Instr.imm).getD 0

/-! The encoder (R108): each field and each immediate bit group at its place (R84 to R89), with the opcode, funct3
and funct7 values of R96 to R103. -/

def regBits (r : Reg) : BitVec 5 := BitVec.ofNat 5 r.val

/-- R84. -/
def encodeR (funct7 : BitVec 7) (funct3 : BitVec 3) (opc : BitVec 7) (rd rs1 rs2 : Reg) : Word :=
  funct7 ++ regBits rs2 ++ regBits rs1 ++ funct3 ++ regBits rd ++ opc

/-- R85. -/
def encodeI (funct3 : BitVec 3) (opc : BitVec 7) (rd rs1 : Reg) (imm : Word) : Word :=
  imm.extractLsb' 0 12 ++ regBits rs1 ++ funct3 ++ regBits rd ++ opc

/-- R86. -/
def encodeS (funct3 : BitVec 3) (rs1 rs2 : Reg) (imm : Word) : Word :=
  imm.extractLsb' 5 7 ++ regBits rs2 ++ regBits rs1 ++ funct3 ++ imm.extractLsb' 0 5 ++ 0x23#7

/-- R87. -/
def encodeB (funct3 : BitVec 3) (rs1 rs2 : Reg) (imm : Word) : Word :=
  imm.extractLsb' 12 1 ++ imm.extractLsb' 5 6 ++ regBits rs2 ++ regBits rs1 ++ funct3
    ++ imm.extractLsb' 1 4 ++ imm.extractLsb' 11 1 ++ 0x63#7

/-- R88. -/
def encodeU (opc : BitVec 7) (rd : Reg) (imm : Word) : Word :=
  imm.extractLsb' 12 20 ++ regBits rd ++ opc

/-- R89. -/
def encodeJ (rd : Reg) (imm : Word) : Word :=
  imm.extractLsb' 20 1 ++ imm.extractLsb' 1 10 ++ imm.extractLsb' 11 1 ++ imm.extractLsb' 12 8
    ++ regBits rd ++ 0x6F#7

/-- `Encode(i)` (R108). -/
def encode : Instr → Word
  | .add rd rs1 rs2 => encodeR 0b0000000#7 0b000#3 0x33#7 rd rs1 rs2
  | .sub rd rs1 rs2 => encodeR 0b0100000#7 0b000#3 0x33#7 rd rs1 rs2
  | .sll rd rs1 rs2 => encodeR 0b0000000#7 0b001#3 0x33#7 rd rs1 rs2
  | .slt rd rs1 rs2 => encodeR 0b0000000#7 0b010#3 0x33#7 rd rs1 rs2
  | .sltu rd rs1 rs2 => encodeR 0b0000000#7 0b011#3 0x33#7 rd rs1 rs2
  | .xor rd rs1 rs2 => encodeR 0b0000000#7 0b100#3 0x33#7 rd rs1 rs2
  | .srl rd rs1 rs2 => encodeR 0b0000000#7 0b101#3 0x33#7 rd rs1 rs2
  | .sra rd rs1 rs2 => encodeR 0b0100000#7 0b101#3 0x33#7 rd rs1 rs2
  | .or rd rs1 rs2 => encodeR 0b0000000#7 0b110#3 0x33#7 rd rs1 rs2
  | .and rd rs1 rs2 => encodeR 0b0000000#7 0b111#3 0x33#7 rd rs1 rs2
  | .addi rd rs1 imm => encodeI 0b000#3 0x13#7 rd rs1 imm
  | .slti rd rs1 imm => encodeI 0b010#3 0x13#7 rd rs1 imm
  | .sltiu rd rs1 imm => encodeI 0b011#3 0x13#7 rd rs1 imm
  | .xori rd rs1 imm => encodeI 0b100#3 0x13#7 rd rs1 imm
  | .ori rd rs1 imm => encodeI 0b110#3 0x13#7 rd rs1 imm
  | .andi rd rs1 imm => encodeI 0b111#3 0x13#7 rd rs1 imm
  | .slli rd rs1 imm => encodeI 0b001#3 0x13#7 rd rs1 imm
  | .srli rd rs1 imm => encodeI 0b101#3 0x13#7 rd rs1 imm
  | .srai rd rs1 imm => encodeI 0b101#3 0x13#7 rd rs1 imm
  | .lb rd rs1 imm => encodeI 0b000#3 0x03#7 rd rs1 imm
  | .lh rd rs1 imm => encodeI 0b001#3 0x03#7 rd rs1 imm
  | .lw rd rs1 imm => encodeI 0b010#3 0x03#7 rd rs1 imm
  | .lbu rd rs1 imm => encodeI 0b100#3 0x03#7 rd rs1 imm
  | .lhu rd rs1 imm => encodeI 0b101#3 0x03#7 rd rs1 imm
  | .sb rs1 rs2 imm => encodeS 0b000#3 rs1 rs2 imm
  | .sh rs1 rs2 imm => encodeS 0b001#3 rs1 rs2 imm
  | .sw rs1 rs2 imm => encodeS 0b010#3 rs1 rs2 imm
  | .beq rs1 rs2 imm => encodeB 0b000#3 rs1 rs2 imm
  | .bne rs1 rs2 imm => encodeB 0b001#3 rs1 rs2 imm
  | .blt rs1 rs2 imm => encodeB 0b100#3 rs1 rs2 imm
  | .bge rs1 rs2 imm => encodeB 0b101#3 rs1 rs2 imm
  | .bltu rs1 rs2 imm => encodeB 0b110#3 rs1 rs2 imm
  | .bgeu rs1 rs2 imm => encodeB 0b111#3 rs1 rs2 imm
  | .lui rd imm => encodeU 0x37#7 rd imm
  | .auipc rd imm => encodeU 0x17#7 rd imm
  | .jal rd imm => encodeJ rd imm
  | .jalr rd rs1 imm => encodeI 0b000#3 0x67#7 rd rs1 imm

end Sys2Proof
end

