-- ==== Sys2Proof/Machine/State.lean ====
section
/-! DEFINITION. The state `S` of spec/10_state.md R20, as plain data, and its reset value (R41). The types the
pipeline registers carry: the control signals of spec/40_control_unit.md R120 and the records of R35. -/

namespace Sys2Proof

/-- The canonical form of a memory: addresses strictly rising, no entry equal to 0, what an unlisted byte reads
as. -/
def Memory.wf (m : Memory) : Bool :=
  decide (m.Pairwise fun c d => c.1 < d.1) && m.all fun c => c.2 != 0#8

/-- Every listed byte lies inside the data memory (R33: addresses 0 to `DMEM_SIZE`-1). -/
def Memory.within (m : Memory) (size : Nat) : Bool := m.all fun c => c.1 < size

/-- The parameters of R8 within their constraints: DMEM_SIZE <= 2^31, IMEM_WORDS <= 2^30, DMEM_INIT a memory of that
size. -/
def RunConfig.accepted (cfg : RunConfig) : Bool :=
  decide (cfg.dmemSize ≤ 2 ^ 31) && decide (cfg.imem.length ≤ 2 ^ 30)
    && cfg.dmemInit.wf && cfg.dmemInit.within cfg.dmemSize

end Sys2Proof

namespace Sys2Proof.Machine

/-- The ALU-operation selector (R124, decision D3); no bit pattern of it is observable (I17). -/
inductive AluOp where
  | add | sub | sll | slt | sltu | xor | srl | sra | or | and
  | eq | ne | lt | ge | ltu | geu
  | link | pcImm | imm | none
  deriving DecidableEq, Repr

/-- The control signals (R120). -/
structure Ctrl where
  registerWrite : Bool
  memoryRead : Bool
  memoryWrite : Bool
  memoryToRegister : Bool
  aluSourceIsImmediate : Bool
  isBranch : Bool
  isJump : Bool
  aluOp : AluOp
  deriving DecidableEq, Repr

/-- How many bytes an access moves: 1, 2 or 4 (R56). -/
inductive Width where
  | byte | half | word
  deriving DecidableEq, Repr

/-- IF/ID (R35). In all four registers validity is the `some` of an option: the leftover fields of an invalid
register "are not state" (R36, log 10). -/
structure IfId where
  pc : Word
  raw : Word
  deriving DecidableEq, Repr

/-- ID/EX (R35). -/
structure IdEx where
  pc : Word
  instr : Snapshot
  ctrl : Ctrl
  rs1Value : Word
  rs2Value : Word
  imm : Word
  deriving DecidableEq, Repr

/-- EX/MEM (R35); `branchTaken` and `branchTarget` are dead state (R39). -/
structure ExMem where
  pc : Word
  instr : Snapshot
  ctrl : Ctrl
  aluResult : Word
  rs2Value : Word
  branchTaken : Bool
  branchTarget : Word
  deriving DecidableEq, Repr

/-- MEM/WB (R35). -/
structure MemWb where
  pc : Word
  instr : Snapshot
  ctrl : Ctrl
  aluResult : Word
  memData : Word
  deriving DecidableEq, Repr

/-- The complete state (R20), and beside it the constants of the run (R8), which the host supplies and no tick
writes (log 2). -/
structure State where
  /-- the general registers (R21); register 0 reads as 0 whatever its slot holds (R22, `readReg`) -/
  x : Vector Word 32
  /-- the address Fetch uses in this cycle (R26) -/
  pc : Word
  /-- the data memory (R33) -/
  dmem : Memory
  ifid : Option IfId
  idex : Option IdEx
  exmem : Option ExMem
  memwb : Option MemWb
  /-- clock ticks since reset, a natural number that never wraps (R32) -/
  cycle : Nat
  /-- retired instructions, a natural number that never wraps (R32) -/
  retired : Nat
  cfg : RunConfig
  deriving DecidableEq, Repr

/-- The hardware has no fault: "All other conditions are locally absorbed (turned into a no-op or a stall) and
never propagate as errors" (R310); "a model must not add" one (R336). So no constructor, and no step faults. -/
inductive Fault where
  deriving DecidableEq, Repr

/-- What the model rejects. No tick and no instruction raises one (R186: "no fault, no stuck state and no
refusal"); `boot` raises the last three before the first tick (I5, I7; log 16). All are safe: nothing runs. -/
inductive Refusal where
  /-- raised by exec for an instruction without a meaning: by none here. Safe. -/
  | notModelled (mnemonic : String)
  /-- raised by `boot`: DMEM_SIZE above 2^31 (R8, I5). Safe. -/
  | dataMemoryTooLarge
  /-- raised by `boot`: an image of more than 2^30 words (R8, I7). Safe. -/
  | imageTooLong
  /-- raised by `boot`: DMEM_INIT is not "`DMEM_SIZE` bytes" in canonical form (R8). Safe. -/
  | dataMemoryInitMalformed
  deriving DecidableEq, Repr

/-- The reset values of R41 under the host's parameters (R340): registers 0, pc 0, DMEM_INIT, four invalid pipeline
registers, both counters 0. The values other than the counters' are the spec's decisions D9 to D12 (log 5). -/
def State.resetWith (cfg : RunConfig) : State :=
  { x := Vector.replicate 32 0#32
    pc := 0#32
    dmem := cfg.dmemInit
    ifid := none
    idex := none
    exmem := none
    memwb := none
    cycle := 0
    retired := 0
    cfg := cfg }

/-- The machine right after reset (R41), under the parameters of `RunConfig.default` (log 3). -/
def State.reset : State := State.resetWith RunConfig.default

/-- The host starts a run (R6, R171, R343): a configuration outside R8's constraints is refused (I5, I7), any other
starts at its reset state. -/
def boot (cfg : RunConfig) : Host.Outcome State Fault Refusal :=
  if 2 ^ 31 < cfg.dmemSize then .refused .dataMemoryTooLarge
  else if 2 ^ 30 < cfg.imem.length then .refused .imageTooLong
  else if cfg.dmemInit.wf && cfg.dmemInit.within cfg.dmemSize then
    .next (State.resetWith cfg)
  else .refused .dataMemoryInitMalformed

end Sys2Proof.Machine
end

