-- ==== Sys2Proof/Machine/Flags.lean ====
section
/-! DEFINITION. The flags of spec/10_state.md R30 and the comparison results as 0 or 1 (spec/42_pipeline_stages.md
R177). There is no architectural flag: nothing latches these two and no rule reads them (decision D21, log 18). -/

namespace Sys2Proof.Machine

/-- The transient flags the ALU produces with each result (R30). -/
structure AluFlags where
  zero : Bool
  negative : Bool
  deriving DecidableEq, Repr

/-- "Zero/negative flags are derived from the result" (R30). -/
def aluFlags (result : Word) : AluFlags := { zero := result == 0#32, negative := result.msb }

/-- A comparison's result: 1 when it holds, else 0 (R177). -/
def boolWord (c : Bool) : Word := if c then 1#32 else 0#32

end Sys2Proof.Machine
end

