-- ==== Sys2Proof/Machine/Ops.lean ====
section
/-! DEFINITION. The named operations over registers and memories: spec/00_scope.md R12, R13; spec/20_memory.md R50 to
R59; and the architectural updates that the meanings of 43 to 48 share (R188).

Taking an exception and returning from one are not among them: the hardware has neither (R310, R314, R315). -/

namespace Sys2Proof.Machine

/-! ## Registers (R12, R22) -/

/-- `x[i]`: "returns 0 when i = 0 and the stored value otherwise" (R12). -/
def regRead (x : Vector Word 32) (r : Reg) : Word := if r = 0 then 0#32 else x[r.val]

/-- `x[i] <- v`: "writes v to register i when i != 0 and does nothing when i = 0" (R12). -/
def regWrite (x : Vector Word 32) (r : Reg) (v : Word) : Vector Word 32 :=
  if r = 0 then x else x.set r.val v

/-- Register `r` as an instruction sees it. -/
def State.readReg (s : State) (r : Reg) : Word := regRead s.x r

/-! ## Data memory (R51 to R56) -/

def Width.bytes : Width → Nat
  | .byte => 1
  | .half => 2
  | .word => 4

/-- One byte of data memory; a byte that is not listed is 0 (log 6). -/
def readByte : Memory → Nat → Byte
  | [], _ => 0#8
  | (k, b) :: rest, a => if k = a then b else readByte rest a

/-- One byte written, in canonical form. -/
def writeByte : Memory → Nat → Byte → Memory
  | [], a, v => if v = 0#8 then [] else [(a, v)]
  | (k, b) :: rest, a, v =>
    if a < k then (if v = 0#8 then (k, b) :: rest else (a, v) :: (k, b) :: rest)
    else if a = k then (if v = 0#8 then rest else (a, v) :: rest)
    else (k, b) :: writeByte rest a v

/-- The `n` bytes from address `a` on, the lowest address least significant (R51). -/
def readBytes (m : Memory) (a : Nat) : Nat → Word
  | 0 => 0#32
  | n + 1 => (readByte m a).zeroExtend 32 ||| (readBytes m (a + 1) n <<< 8)

/-- The low `n` bytes of `v` at address `a` on, the least significant lowest (R51, R54). -/
def writeBytes (m : Memory) (a : Nat) : Nat → Word → Memory
  | 0, _ => m
  | n + 1, v => writeBytes (writeByte m a (v.extractLsb' 0 8)) (a + 1) n (v >>> 8)

/-- The bounds rule, in unbounded integers: `u(addr) + n <= DMEM_SIZE` (R52, decision D7). -/
def inBounds (size : Nat) (addr : Word) (n : Width) : Bool := decide (addr.toNat + n.bytes ≤ size)

/-- `MemRead(addr, n)`, the value in the low bits of a word; 0 out of bounds (R53). -/
def memRead (size : Nat) (m : Memory) (addr : Word) (n : Width) : Word :=
  if inBounds size addr n then readBytes m addr.toNat n.bytes else 0#32

/-- `MemWrite(addr, n, v)`; nothing out of bounds (R54). -/
def memWrite (size : Nat) (m : Memory) (addr : Word) (n : Width) (v : Word) : Memory :=
  if inBounds size addr n then writeBytes m addr.toNat n.bytes v else m

/-! ## Instruction memory (R58, R59) -/

/-- `IFetch(pc)`: the word at index `pc[31:2]`, the zero word beyond the image (R58). -/
def ifetch (imem : List Word) (pc : Word) : Word := (imem[(pc.extractLsb' 2 30).toNat]?).getD 0#32

/-- The program image with `w` at word index `k`, zero words between its end and `k`. -/
def placeWord : List Word → Nat → Word → List Word
  | [], 0, w => [w]
  | [], k + 1, w => 0#32 :: placeWord [] k w
  | _ :: rest, 0, w => w :: rest
  | v :: rest, k + 1, w => v :: placeWord rest k w

/-! ## Architectural updates of one instruction run alone (R188) -/

/-- The instruction is done and counted, and control goes to `npc`. -/
def State.retireTo (s : State) (npc : Word) : State := { s with pc := npc, retired := s.retired + 1 }

/-- `x[rd] <- v` ("dropped when rd = 0"), then `pc <- npc`. -/
def State.writeAndRetire (s : State) (rd : Reg) (v npc : Word) : State :=
  { s with x := regWrite s.x rd v }.retireTo npc

/-- `x[rd] <- v; pc <- pc + 4` (R210, R230, R250, R262). -/
def State.result (s : State) (rd : Reg) (v : Word) : State := s.writeAndRetire rd v (s.pc + 4#32)

/-- `MemRead` on the state's data memory. -/
def State.load (s : State) (addr : Word) (n : Width) : Word := memRead s.cfg.dmemSize s.dmem addr n

/-- `MemWrite(addr, n, v); pc <- pc + 4` (R268). -/
def State.store (s : State) (addr : Word) (n : Width) (v : Word) : State :=
  { s with dmem := memWrite s.cfg.dmemSize s.dmem addr n v }.retireTo (s.pc + 4#32)

/-- `pc <- pc + imm` when the condition holds, else `pc <- pc + 4` (R281). -/
def State.branchIf (s : State) (cond : Bool) (imm : Word) : State :=
  s.retireTo (if cond then s.pc + imm else s.pc + 4#32)

end Sys2Proof.Machine
end

