-- ==== Sys2Proof/Machine/Operands.lean ====
section
/-! DEFINITION. The operand forms: shift amounts (R177, R237), effective addresses (R261), load extension and access
widths (R126, R260), branch conditions (R281) and targets (R179, R288, R289). -/

namespace Sys2Proof.Machine

/-- "Shift amount masked to 5 bits": `u(b[4:0])` (R177). -/
def shiftAmount (b : Word) : Nat := (b.extractLsb' 0 5).toNat

/-- `ea = x[rs1] + imm`, modulo 2^32 (R261, decision D14). -/
def effectiveAddress (base imm : Word) : Word := base + imm

def sext8 (v : Word) : Word := (v.extractLsb' 0 8).signExtend 32
def sext16 (v : Word) : Word := (v.extractLsb' 0 16).signExtend 32
def zext8 (v : Word) : Word := (v.extractLsb' 0 8).zeroExtend 32
def zext16 (v : Word) : Word := (v.extractLsb' 0 16).zeroExtend 32

/-- `LoadExtend(op, v)` (R260); of an instruction that is no load it is never used. -/
def loadExtend (i : Snapshot) (v : Word) : Word :=
  match i.instr with
  | some (.lb _ _ _) => sext8 v
  | some (.lbu _ _ _) => zext8 v
  | some (.lh _ _ _) => sext16 v
  | some (.lhu _ _ _) => zext16 v
  | _ => v

/-- `Width(op)` (R126, R260): 4 for LW, SW and, as a total function, for every other opcode. -/
def accessWidth (i : Snapshot) : Width :=
  match i.instr with
  | some (.lb _ _ _) | some (.lbu _ _ _) | some (.sb _ _ _) => .byte
  | some (.lh _ _ _) | some (.lhu _ _ _) | some (.sh _ _ _) => .half
  | _ => .word

/-- `BranchCond(op, a, b)` (R281); of an instruction that is no branch it is never used. -/
def branchCond (i : Snapshot) (a b : Word) : Bool :=
  match i.instr with
  | some (.beq _ _ _) => a == b
  | some (.bne _ _ _) => a != b
  | some (.blt _ _ _) => BitVec.slt a b
  | some (.bge _ _ _) => !BitVec.slt a b
  | some (.bltu _ _ _) => BitVec.ult a b
  | some (.bgeu _ _ _) => !BitVec.ult a b
  | _ => false

/-- The target of a branch and of JAL, `pc + imm` modulo 2^32 (R281, R289, decision D13). -/
def relativeTarget (pc imm : Word) : Word := pc + imm

/-- The target of JALR, `(a + imm) & 0xFFFFFFFE` (R288, decision D13). -/
def jalrTarget (a imm : Word) : Word := (a + imm) &&& 0xFFFFFFFE#32

/-- The link value `pc + 4` (R290). -/
def linkValue (pc : Word) : Word := pc + 4#32

end Sys2Proof.Machine
end

