-- ==== Sys2Proof/Machine/LoadStore.lean ====
section
/-! DEFINITION. The loads and stores, run one at a time (spec/46_loads_stores.md). A load: "ea = x[rs1] + imm;
x[rd] <- LoadExtend(op, MemRead(ea, Width(op))); pc <- pc + 4" (R262). A store: "ea = x[rs1] + imm;
MemWrite(ea, Width(op), x[rs2]); pc <- pc + 4" (R268). Out of bounds a load gives 0 and a store writes nothing. -/

namespace Sys2Proof.Machine

/-- LB: a byte, sign-extended (R263). -/
def execLb (rd rs1 : Reg) (imm : Word) (s : State) : Host.Outcome State Fault Refusal :=
  .next (s.result rd (sext8 (s.load (effectiveAddress (s.readReg rs1) imm) .byte)))

/-- LH: two bytes, sign-extended (R264). -/
def execLh (rd rs1 : Reg) (imm : Word) (s : State) : Host.Outcome State Fault Refusal :=
  .next (s.result rd (sext16 (s.load (effectiveAddress (s.readReg rs1) imm) .half)))

/-- LW: four bytes, as they are (R265). -/
def execLw (rd rs1 : Reg) (imm : Word) (s : State) : Host.Outcome State Fault Refusal :=
  .next (s.result rd (s.load (effectiveAddress (s.readReg rs1) imm) .word))

/-- LBU: a byte, zero-extended (R266). -/
def execLbu (rd rs1 : Reg) (imm : Word) (s : State) : Host.Outcome State Fault Refusal :=
  .next (s.result rd (zext8 (s.load (effectiveAddress (s.readReg rs1) imm) .byte)))

/-- LHU: two bytes, zero-extended (R267). -/
def execLhu (rd rs1 : Reg) (imm : Word) (s : State) : Host.Outcome State Fault Refusal :=
  .next (s.result rd (zext16 (s.load (effectiveAddress (s.readReg rs1) imm) .half)))

/-- SB: the low byte of x[rs2] (R269). -/
def execSb (rs1 rs2 : Reg) (imm : Word) (s : State) : Host.Outcome State Fault Refusal :=
  .next (s.store (effectiveAddress (s.readReg rs1) imm) .byte (s.readReg rs2))

/-- SH: the low two bytes of x[rs2] (R270). -/
def execSh (rs1 rs2 : Reg) (imm : Word) (s : State) : Host.Outcome State Fault Refusal :=
  .next (s.store (effectiveAddress (s.readReg rs1) imm) .half (s.readReg rs2))

/-- SW: all four bytes of x[rs2] (R271). -/
def execSw (rs1 rs2 : Reg) (imm : Word) (s : State) : Host.Outcome State Fault Refusal :=
  .next (s.store (effectiveAddress (s.readReg rs1) imm) .word (s.readReg rs2))

end Sys2Proof.Machine
end

