-- ==== Sys2Proof/Machine/RegImm.lean ====
section
/-! DEFINITION. The register-immediate instructions, run one at a time (spec/44_alu_imm.md): "a = x[rs1];
x[rd] <- f(a, imm); pc <- pc + 4" (R230). -/

namespace Sys2Proof.Machine

/-- ADDI: addition modulo 2^32 (R231). -/
def execAddi (rd rs1 : Reg) (imm : Word) (s : State) : Host.Outcome State Fault Refusal :=
  .next (s.result rd (s.readReg rs1 + imm))

/-- SLTI: 1 if less than as signed, else 0 (R232). -/
def execSlti (rd rs1 : Reg) (imm : Word) (s : State) : Host.Outcome State Fault Refusal :=
  .next (s.result rd (boolWord (BitVec.slt (s.readReg rs1) imm)))

/-- SLTIU: 1 if less than as unsigned, else 0; the immediate is sign-extended first (R233). -/
def execSltiu (rd rs1 : Reg) (imm : Word) (s : State) : Host.Outcome State Fault Refusal :=
  .next (s.result rd (boolWord (BitVec.ult (s.readReg rs1) imm)))

/-- XORI: bitwise exclusive or (R234). -/
def execXori (rd rs1 : Reg) (imm : Word) (s : State) : Host.Outcome State Fault Refusal :=
  .next (s.result rd (s.readReg rs1 ^^^ imm))

/-- ORI: bitwise or (R235). -/
def execOri (rd rs1 : Reg) (imm : Word) (s : State) : Host.Outcome State Fault Refusal :=
  .next (s.result rd (s.readReg rs1 ||| imm))

/-- ANDI: bitwise and (R236). -/
def execAndi (rd rs1 : Reg) (imm : Word) (s : State) : Host.Outcome State Fault Refusal :=
  .next (s.result rd (s.readReg rs1 &&& imm))

/-- SLLI: left shift by `imm[4:0]` (R237). -/
def execSlli (rd rs1 : Reg) (imm : Word) (s : State) : Host.Outcome State Fault Refusal :=
  .next (s.result rd (s.readReg rs1 <<< shiftAmount imm))

/-- SRLI: logical right shift by `imm[4:0]` (R238). -/
def execSrli (rd rs1 : Reg) (imm : Word) (s : State) : Host.Outcome State Fault Refusal :=
  .next (s.result rd (s.readReg rs1 >>> shiftAmount imm))

/-- SRAI: arithmetic right shift by `imm[4:0]`; the selector bit never changes the amount (R239). -/
def execSrai (rd rs1 : Reg) (imm : Word) (s : State) : Host.Outcome State Fault Refusal :=
  .next (s.result rd ((s.readReg rs1).sshiftRight (shiftAmount imm)))

end Sys2Proof.Machine
end

