-- ==== Sys2Proof/Machine/RegReg.lean ====
section
/-! DEFINITION. The register-register instructions, run one at a time (spec/43_alu_reg_reg.md): "a = x[rs1]; b = x[rs2];
x[rd] <- f(a, b); pc <- pc + 4" (R210). The operands are read before the result is written, and a result for
register 0 is dropped. -/

namespace Sys2Proof.Machine

/-- ADD: addition modulo 2^32 (R211). -/
def execAdd (rd rs1 rs2 : Reg) (s : State) : Host.Outcome State Fault Refusal :=
  .next (s.result rd (s.readReg rs1 + s.readReg rs2))

/-- SUB: subtraction modulo 2^32 (R212). -/
def execSub (rd rs1 rs2 : Reg) (s : State) : Host.Outcome State Fault Refusal :=
  .next (s.result rd (s.readReg rs1 - s.readReg rs2))

/-- SLL: left shift by the low five bits of rs2 (R213). -/
def execSll (rd rs1 rs2 : Reg) (s : State) : Host.Outcome State Fault Refusal :=
  .next (s.result rd (s.readReg rs1 <<< shiftAmount (s.readReg rs2)))

/-- SLT: 1 if less than as signed, else 0 (R214). -/
def execSlt (rd rs1 rs2 : Reg) (s : State) : Host.Outcome State Fault Refusal :=
  .next (s.result rd (boolWord (BitVec.slt (s.readReg rs1) (s.readReg rs2))))

/-- SLTU: 1 if less than as unsigned, else 0 (R215). -/
def execSltu (rd rs1 rs2 : Reg) (s : State) : Host.Outcome State Fault Refusal :=
  .next (s.result rd (boolWord (BitVec.ult (s.readReg rs1) (s.readReg rs2))))

/-- XOR: bitwise exclusive or (R216). -/
def execXor (rd rs1 rs2 : Reg) (s : State) : Host.Outcome State Fault Refusal :=
  .next (s.result rd (s.readReg rs1 ^^^ s.readReg rs2))

/-- SRL: logical right shift by the low five bits of rs2 (R217). -/
def execSrl (rd rs1 rs2 : Reg) (s : State) : Host.Outcome State Fault Refusal :=
  .next (s.result rd (s.readReg rs1 >>> shiftAmount (s.readReg rs2)))

/-- SRA: arithmetic right shift by the low five bits of rs2 (R218). -/
def execSra (rd rs1 rs2 : Reg) (s : State) : Host.Outcome State Fault Refusal :=
  .next (s.result rd ((s.readReg rs1).sshiftRight (shiftAmount (s.readReg rs2))))

/-- OR: bitwise or (R219). -/
def execOr (rd rs1 rs2 : Reg) (s : State) : Host.Outcome State Fault Refusal :=
  .next (s.result rd (s.readReg rs1 ||| s.readReg rs2))

/-- AND: bitwise and (R220). -/
def execAnd (rd rs1 rs2 : Reg) (s : State) : Host.Outcome State Fault Refusal :=
  .next (s.result rd (s.readReg rs1 &&& s.readReg rs2))

end Sys2Proof.Machine
end

