-- ==== Sys2Proof/Machine/Transfer.lean ====
section
/-! DEFINITION. The branches and jumps, run one at a time (spec/47_control_transfer.md). A branch: "if BranchCond(op, a, b):
pc <- pc + imm else: pc <- pc + 4" (R281). JAL and JALR "are always taken with return address PC+4 written to rd"
(R288, R289). -/

namespace Sys2Proof.Machine

/-- BEQ: taken when equal (R282). -/
def execBeq (rs1 rs2 : Reg) (imm : Word) (s : State) : Host.Outcome State Fault Refusal :=
  .next (s.branchIf (s.readReg rs1 == s.readReg rs2) imm)

/-- BNE: taken when not equal (R283). -/
def execBne (rs1 rs2 : Reg) (imm : Word) (s : State) : Host.Outcome State Fault Refusal :=
  .next (s.branchIf (s.readReg rs1 != s.readReg rs2) imm)

/-- BLT: taken when less than as signed (R284). -/
def execBlt (rs1 rs2 : Reg) (imm : Word) (s : State) : Host.Outcome State Fault Refusal :=
  .next (s.branchIf (BitVec.slt (s.readReg rs1) (s.readReg rs2)) imm)

/-- BGE: taken when greater than or equal as signed (R285). -/
def execBge (rs1 rs2 : Reg) (imm : Word) (s : State) : Host.Outcome State Fault Refusal :=
  .next (s.branchIf (BitVec.sle (s.readReg rs2) (s.readReg rs1)) imm)

/-- BLTU: taken when less than as unsigned (R286). -/
def execBltu (rs1 rs2 : Reg) (imm : Word) (s : State) : Host.Outcome State Fault Refusal :=
  .next (s.branchIf (BitVec.ult (s.readReg rs1) (s.readReg rs2)) imm)

/-- BGEU: taken when greater than or equal as unsigned (R287). -/
def execBgeu (rs1 rs2 : Reg) (imm : Word) (s : State) : Host.Outcome State Fault Refusal :=
  .next (s.branchIf (BitVec.ule (s.readReg rs2) (s.readReg rs1)) imm)

/-- JAL: the link `pc + 4` to rd, control to `pc + imm` (R289, R290). -/
def execJal (rd : Reg) (imm : Word) (s : State) : Host.Outcome State Fault Refusal :=
  .next (s.writeAndRetire rd (linkValue s.pc) (relativeTarget s.pc imm))

/-- JALR: the link `pc + 4` to rd, control to `(x[rs1] + imm)` with bit 0 cleared, rs1 read before rd is written
(R288, R290). -/
def execJalr (rd rs1 : Reg) (imm : Word) (s : State) : Host.Outcome State Fault Refusal :=
  .next (s.writeAndRetire rd (linkValue s.pc) (jalrTarget (s.readReg rs1) imm))

end Sys2Proof.Machine
end

