-- ==== Sys2Proof/Machine/UpperImm.lean ====
section
/-! DEFINITION. The upper-immediate instructions, run one at a time (spec/45_upper_imm.md R250 to R252). -/

namespace Sys2Proof.Machine

/-- LUI: the immediate itself (R251). -/
def execLui (rd : Reg) (imm : Word) (s : State) : Host.Outcome State Fault Refusal :=
  .next (s.result rd imm)

/-- AUIPC: the instruction's own address plus the immediate, modulo 2^32 (R252). -/
def execAuipc (rd : Reg) (imm : Word) (s : State) : Host.Outcome State Fault Refusal :=
  .next (s.result rd (s.pc + imm))

end Sys2Proof.Machine
end

