-- ==== Sys2Proof/Machine/Alu.lean ====
section
/-! DEFINITION. The ALU (spec/42_pipeline_stages.md R177). "No operation traps, saturates or reports overflow." -/

namespace Sys2Proof.Machine

/-- `ALU(aluOp, a, b, pc, imm)` (R177). -/
def alu (op : AluOp) (a b pc imm : Word) : Word :=
  match op with
  | .add => a + b
  | .sub => a - b
  | .and => a &&& b
  | .or => a ||| b
  | .xor => a ^^^ b
  | .sll => a <<< shiftAmount b
  | .srl => a >>> shiftAmount b
  | .sra => a.sshiftRight (shiftAmount b)
  | .slt => boolWord (BitVec.slt a b)
  | .sltu => boolWord (BitVec.ult a b)
  | .eq => boolWord (a == b)
  | .ne => boolWord (a != b)
  | .lt => boolWord (BitVec.slt a b)
  | .ge => boolWord (!BitVec.slt a b)
  | .ltu => boolWord (BitVec.ult a b)
  | .geu => boolWord (!BitVec.ult a b)
  | .link => linkValue pc
  | .pcImm => pc + imm
  | .imm => imm
  | .none => 0#32

end Sys2Proof.Machine
end

