-- ==== Sys2Proof/Machine/ControlUnit.lean ====
section
/-! DEFINITION. The control-signal generator: "pure function mapping (format, opcode) to a fixed set of control
signals" (spec/40_control_unit.md R121 to R125). -/

namespace Sys2Proof.Machine

/-- All signals false (R122, INVALID). -/
def Ctrl.off : Ctrl :=
  { registerWrite := false, memoryRead := false, memoryWrite := false, memoryToRegister := false,
    aluSourceIsImmediate := false, isBranch := false, isJump := false, aluOp := .none }

/-! The rows of R122, one per class; a signal not listed is false. -/

def ctrlRegReg (op : AluOp) : Ctrl := { Ctrl.off with registerWrite := true, aluOp := op }

def ctrlRegImm (op : AluOp) : Ctrl :=
  { Ctrl.off with registerWrite := true, aluSourceIsImmediate := true, aluOp := op }

def ctrlLoad : Ctrl :=
  { Ctrl.off with registerWrite := true, memoryRead := true, memoryToRegister := true,
                  aluSourceIsImmediate := true, aluOp := .add }

def ctrlStore : Ctrl := { Ctrl.off with memoryWrite := true, aluSourceIsImmediate := true, aluOp := .add }

def ctrlBranch (op : AluOp) : Ctrl := { Ctrl.off with isBranch := true, aluOp := op }

def ctrlJump : Ctrl := { Ctrl.off with registerWrite := true, isJump := true, aluOp := .link }

/-- The complete control table, one row per opcode (R125). -/
def controlRow : Instr → Ctrl
  | .add _ _ _ => ctrlRegReg .add
  | .sub _ _ _ => ctrlRegReg .sub
  | .sll _ _ _ => ctrlRegReg .sll
  | .slt _ _ _ => ctrlRegReg .slt
  | .sltu _ _ _ => ctrlRegReg .sltu
  | .xor _ _ _ => ctrlRegReg .xor
  | .srl _ _ _ => ctrlRegReg .srl
  | .sra _ _ _ => ctrlRegReg .sra
  | .or _ _ _ => ctrlRegReg .or
  | .and _ _ _ => ctrlRegReg .and
  | .addi _ _ _ => ctrlRegImm .add
  | .slti _ _ _ => ctrlRegImm .slt
  | .sltiu _ _ _ => ctrlRegImm .sltu
  | .xori _ _ _ => ctrlRegImm .xor
  | .ori _ _ _ => ctrlRegImm .or
  | .andi _ _ _ => ctrlRegImm .and
  | .slli _ _ _ => ctrlRegImm .sll
  | .srli _ _ _ => ctrlRegImm .srl
  | .srai _ _ _ => ctrlRegImm .sra
  | .lb _ _ _ => ctrlLoad
  | .lh _ _ _ => ctrlLoad
  | .lw _ _ _ => ctrlLoad
  | .lbu _ _ _ => ctrlLoad
  | .lhu _ _ _ => ctrlLoad
  | .sb _ _ _ => ctrlStore
  | .sh _ _ _ => ctrlStore
  | .sw _ _ _ => ctrlStore
  | .beq _ _ _ => ctrlBranch .eq
  | .bne _ _ _ => ctrlBranch .ne
  | .blt _ _ _ => ctrlBranch .lt
  | .bge _ _ _ => ctrlBranch .ge
  | .bltu _ _ _ => ctrlBranch .ltu
  | .bgeu _ _ _ => ctrlBranch .geu
  | .lui _ _ => ctrlRegImm .imm
  | .auipc _ _ => ctrlRegImm .pcImm
  | .jal _ _ => ctrlJump
  | .jalr _ _ _ => ctrlJump

/-- `Control(i)`: "INVALID instructions get all signals false" (R122). -/
def controlSignals (i : Snapshot) : Ctrl := (i.instr.map controlRow).getD Ctrl.off

end Sys2Proof.Machine
end

