-- ==== Sys2Proof/Machine/Hazard.lean ====
section
/-! DEFINITION. The hazard-detection unit and the forwarding unit (spec/41_hazard_forwarding.md R140 to R153). Both
read start-of-cycle values only (R38, decision D20) and write nothing. -/

namespace Sys2Proof.Machine

/-- `Sources(i)`: "U/J formats use neither register, B/S/R use both, I-forms use rs1 only" (R140). -/
def sources (i : Snapshot) : List Reg :=
  match i.fmt with
  | .r | .s | .b => i.rs1.toList ++ i.rs2.toList
  | .i => i.rs1.toList
  | .u | .j | .none => []

/-- `HazardSources(i)`: register 0 is excluded (R140). -/
def hazardSources (i : Snapshot) : List Reg := (sources i).filter (· != 0)

/-- An entry with this instruction and these signals is a producer of `r` (R141). -/
def produces (i : Snapshot) (c : Ctrl) (r : Reg) : Bool :=
  c.registerWrite && i.rd == some r && r != 0

/-- `ProducesLoad` for the same entry (R141). -/
def producesLoad (i : Snapshot) (c : Ctrl) (r : Reg) : Bool := produces i c r && c.memoryRead

/-! `Produces(P, r)` and `ProducesLoad(P, r)` for the three registers; "an invalid register (a bubble) produces
nothing" (R141). -/

def State.idexProduces (s : State) (r : Reg) : Bool := s.idex.any fun p => produces p.instr p.ctrl r
def State.exmemProduces (s : State) (r : Reg) : Bool := s.exmem.any fun p => produces p.instr p.ctrl r
def State.memwbProduces (s : State) (r : Reg) : Bool := s.memwb.any fun p => produces p.instr p.ctrl r
def State.idexLoads (s : State) (r : Reg) : Bool := s.idex.any fun p => producesLoad p.instr p.ctrl r
def State.exmemLoads (s : State) (r : Reg) : Bool := s.exmem.any fun p => producesLoad p.instr p.ctrl r
def State.memwbLoads (s : State) (r : Reg) : Bool := s.memwb.any fun p => producesLoad p.instr p.ctrl r

/-- `IsControlFlow(i)`: a branch, JAL or JALR (R142). -/
def isControlFlow (i : Snapshot) : Bool := (controlSignals i).isBranch || (controlSignals i).isJump

/-- The decode-stage stall of the no-forwarding policy (R144). -/
def decodeStallNoFwd (i : Snapshot) (s : State) : Bool :=
  (hazardSources i).any fun r => s.idexProduces r || s.exmemProduces r || s.memwbProduces r

/-- The load-use hazard of the forwarding policy (R145). -/
def loadUse (i : Snapshot) (s : State) : Bool := (hazardSources i).any fun r => s.idexLoads r

/-- The wait of a branch or JALR in Decode, forwarding policy (R146, decision D15, conflict C1). -/
def controlFlowWait (i : Snapshot) (s : State) : Bool :=
  isControlFlow i && (hazardSources i).any fun r => s.idexProduces r || s.exmemLoads r

/-- `DecodeStall(i, S)` for the instruction in IF/ID (R147). -/
def decodeStall (i : Snapshot) (s : State) : Bool :=
  if s.cfg.forwarding then loadUse i s || controlFlowWait i s else decodeStallNoFwd i s

/-- `FetchStall(f, S)` for the word being fetched (R148; the MEM/WB half is kept, conflict C3). -/
def fetchStall (f : Snapshot) (s : State) : Bool :=
  s.cfg.forwarding && isControlFlow f
    && (hazardSources f).any fun r => s.idexLoads r || s.memwbLoads r

/-- MEM/WB's committed value: "its memory-read data if memoryToRegister is set, else its ALU result" (R150). -/
def MemWb.committed (w : MemWb) : Word := if w.ctrl.memoryToRegister then w.memData else w.aluResult

/-- `ForwardValue(r, latched, S)` (R150): EX/MEM, the younger producer, before MEM/WB; register 0 and an absent
field are never forwarded. Kept as written for a load in EX/MEM (R152, conflict C6). -/
def forwardValue (r : Option Reg) (latched : Word) (s : State) : Word :=
  match r with
  | none => latched
  | some r =>
    if r = 0 then latched
    else if s.exmemProduces r then (s.exmem.map ExMem.aluResult).getD latched
    else if s.memwbProduces r then (s.memwb.map MemWb.committed).getD latched
    else latched

/-- `ExOperands(S)` for the entry in ID/EX (R151). -/
def exOperands (e : IdEx) (s : State) : Word × Word :=
  if s.cfg.forwarding then
    (forwardValue e.instr.rs1 e.rs1Value s, forwardValue e.instr.rs2 e.rs2Value s)
  else (e.rs1Value, e.rs2Value)

/-- `DecodeOperands(i, v1, v2, S)` for a branch or JALR in Decode (R153, decision D16). -/
def decodeOperands (i : Snapshot) (v1 v2 : Word) (s : State) : Word × Word :=
  if s.cfg.forwarding then (forwardValue i.rs1 v1 s, forwardValue i.rs2 v2 s) else (v1, v2)

end Sys2Proof.Machine
end

