-- ==== Sys2Proof/Machine/Stages.lean ====
section
/-! DEFINITION. The five stage functions and the redirect (spec/42_pipeline_stages.md R172 to R184). Each is a function of
the start-of-cycle state; the one value handed on within a tick is the register file after Writeback (R174). -/

namespace Sys2Proof.Machine

/-! ## Writeback (step 1) -/

/-- The write an entry commits: "skipped entirely if the destination is register 0 or registerWrite is unset" (R172;
`regWrite` drops register 0). -/
def MemWb.commit (w : MemWb) (x : Vector Word 32) : Vector Word 32 :=
  if w.ctrl.registerWrite then
    match w.instr.rd with
    | some rd => regWrite x rd w.committed
    | none => x
  else x

/-- `x1`, the register file after this tick's Writeback (R172). -/
def writebackRegs (s : State) : Vector Word 32 :=
  match s.memwb with
  | some w => w.commit s.x
  | none => s.x

/-- What an instruction adds to the retired counter: 1 unless it is INVALID (R173, conflict C5, decision D19). -/
def retireCount (i : Snapshot) : Nat := if i.instr.isSome then 1 else 0

/-- `S'.retired` (R173). -/
def writebackRetired (s : State) : Nat :=
  match s.memwb with
  | some w => s.retired + retireCount w.instr
  | none => s.retired

/-! ## Memory (step 2) -/

/-- The data memory after an entry's access: a store's bytes, else nothing (R175). -/
def ExMem.storeTo (m : ExMem) (size : Nat) (mem : Memory) : Memory :=
  if m.ctrl.memoryWrite then memWrite size mem m.aluResult (accessWidth m.instr) m.rs2Value else mem

/-- The entry as Memory hands it on; `memData` of a non-load is the filler 0 (R175, decision D21, log 11). -/
def ExMem.access (m : ExMem) (size : Nat) (mem : Memory) : MemWb :=
  { pc := m.pc
    instr := m.instr
    ctrl := m.ctrl
    aluResult := m.aluResult
    memData :=
      if m.ctrl.memoryRead then loadExtend m.instr (memRead size mem m.aluResult (accessWidth m.instr))
      else 0#32 }

/-- `S'.dmem` (R175). -/
def memoryData (s : State) : Memory :=
  match s.exmem with
  | some m => m.storeTo s.cfg.dmemSize s.dmem
  | none => s.dmem

/-- `S'.MEMWB` (R175). -/
def memoryStage (s : State) : Option MemWb := s.exmem.map fun m => m.access s.cfg.dmemSize s.dmem

/-! ## Execute (step 3) -/

/-- The second operand: "replaced by the immediate whenever aluSourceIsImmediate is set" (R176). -/
def IdEx.secondOperand (e : IdEx) (b : Word) : Word := if e.ctrl.aluSourceIsImmediate then e.imm else b

/-- The ALU's result for an entry with register operands `a` and `b` (R176). -/
def IdEx.result (e : IdEx) (a b : Word) : Word := alu e.ctrl.aluOp a (e.secondOperand b) e.pc e.imm

/-- The entry as Execute hands it on: the store data is the register operand, and the dead fields are false and 0
(R176, R39). -/
def IdEx.execute (e : IdEx) (a b : Word) : ExMem :=
  { pc := e.pc
    instr := e.instr
    ctrl := e.ctrl
    aluResult := e.result a b
    rs2Value := b
    branchTaken := false
    branchTarget := 0#32 }

/-- `S'.EXMEM` (R176). -/
def executeStage (s : State) : Option ExMem :=
  s.idex.map fun e => e.execute (exOperands e s).1 (exOperands e s).2

/-- The transient flags of the instruction in Execute (R30, R177); nothing latches them. -/
def executeFlags (s : State) : Option AluFlags := (executeStage s).map fun m => aluFlags m.aluResult

/-! ## Decode (step 4) -/

/-- The operand latched for a source field; the filler 0 for an absent one (R178, decision D21, log 11). -/
def latchOperand (x1 : Vector Word 32) (r : Option Reg) : Word :=
  match r with
  | some r => regRead x1 r
  | none => 0#32

/-- The operand values with which the instruction in Decode is resolved: read after this tick's Writeback, forwarded under
the forwarding policy (R153, R179). -/
def resolveOperands (d : IfId) (s : State) : Word × Word :=
  decodeOperands (snapshot d.raw) (latchOperand (writebackRegs s) (snapshot d.raw).rs1)
    (latchOperand (writebackRegs s) (snapshot d.raw).rs2) s

/-- `Resolve`: where a branch or jump in Decode with operands `a` and `b` redirects Fetch, if it does (R179). -/
def resolve (i : Snapshot) (pcD a b : Word) : Option Word :=
  let c := controlSignals i
  if c.isBranch then
    if branchCond i a b then some (relativeTarget pcD i.imm) else none
  else if c.isJump then
    match i.instr with
    | some (.jalr _ _ _) => some (jalrTarget a i.imm)
    | _ => some (relativeTarget pcD i.imm)
  else none

/-- The entry Decode latches into ID/EX for an instruction that does not stall (R178). -/
def decodeEntry (d : IfId) (x1 : Vector Word 32) : IdEx :=
  { pc := d.pc
    instr := snapshot d.raw
    ctrl := controlSignals (snapshot d.raw)
    rs1Value := latchOperand x1 (snapshot d.raw).rs1
    rs2Value := latchOperand x1 (snapshot d.raw).rs2
    imm := (snapshot d.raw).imm }

/-- `stallD` (R178): there is an instruction in IF/ID and the hazard unit stalls it. -/
def decodeStalled (s : State) : Bool := s.ifid.any fun d => decodeStall (snapshot d.raw) s

/-- `S'.IDEX` (R178): a bubble when Decode has nothing or stalls. -/
def decodeStage (s : State) : Option IdEx :=
  if decodeStalled s then none else s.ifid.map fun d => decodeEntry d (writebackRegs s)

/-- The redirect Decode signals, none while it stalls (R178, R179). -/
def decodeRedirect (s : State) : Option Word :=
  if decodeStalled s then none
  else s.ifid.bind fun d =>
    resolve (snapshot d.raw) d.pc (resolveOperands d s).1 (resolveOperands d s).2

/-! ## Fetch (step 5) and the redirect (step 6) -/

/-- The word Fetch reads in this cycle (R58, R180). -/
def fetchedWord (s : State) : Word := ifetch s.cfg.imem s.pc

/-- Fetch stalls on the word it reads; asked only when Decode does not stall (R148, R181). -/
def fetchStalled (s : State) : Bool := !decodeStalled s && fetchStall (snapshot (fetchedWord s)) s

/-- `S'.IFID` before the redirect (R180 to R182). -/
def fetchStage (s : State) : Option IfId :=
  if decodeStalled s then s.ifid
  else if fetchStalled s then none
  else some { pc := s.pc, raw := fetchedWord s }

/-- `pcNext` (R180 to R182). -/
def nextSequentialPc (s : State) : Word :=
  if decodeStalled s || fetchStalled s then s.pc else s.pc + 4#32

/-- `S'.pc` (R183, R184): the redirect's target, else `pcNext`. -/
def nextPc (s : State) : Word := (decodeRedirect s).getD (nextSequentialPc s)

/-- `S'.IFID` (R183, R184): a redirect flushes what Fetch wrote. -/
def nextIfid (s : State) : Option IfId := if (decodeRedirect s).isSome then none else fetchStage s

end Sys2Proof.Machine
end

