-- ==== Sys2Proof/Machine/Sequential.lean ====
section
/-! DEFINITION. The one-instruction-at-a-time reference: `SeqStep` as R188 writes it, over the control unit and the
ALU; the same step through `exec`; and the completion of the instructions in flight, through which the pipeline is
compared with it (R189). -/

namespace Sys2Proof.Machine

/-- INVALID run alone: "pc <- pc + 4, nothing else changes" (R300). It is not counted (R173). -/
def State.skipInvalid (s : State) : State := { s with pc := s.pc + 4#32 }

/-- The instruction of a snapshot run alone at `s.pc`. -/
def runSnapshot (i : Snapshot) (s : State) : Host.Outcome State Fault Refusal :=
  match i.instr with
  | some instr => exec instr s
  | none => .next s.skipInvalid

/-- The reference's next step: the word at `pc` decoded and run by its meaning. -/
def referenceStep (s : State) : Host.Outcome State Fault Refusal :=
  runSnapshot (snapshot (fetchedWord s)) s

/-- The next program counter of R188's reference. -/
def seqNextPc (i : Snapshot) (a b pc : Word) : Word :=
  match i.instr with
  | some (.jal _ _) => relativeTarget pc i.imm
  | some (.jalr _ _ _) => jalrTarget a i.imm
  | _ => if (controlSignals i).isBranch && branchCond i a b then relativeTarget pc i.imm else pc + 4#32

/-- `SeqStep` for a decoded instruction, line by line as in R188, over the same control unit, ALU and memory
primitives as the pipeline. -/
def seqRun (i : Snapshot) (s : State) : State :=
  if i.instr.isNone then s.skipInvalid
  else
    let c := controlSignals i
    let a := latchOperand s.x i.rs1
    let b := latchOperand s.x i.rs2
    let r := alu c.aluOp a (if c.aluSourceIsImmediate then i.imm else b) s.pc i.imm
    let v := if c.memoryRead then loadExtend i (s.load r (accessWidth i)) else r
    { s with
      x := (if c.registerWrite then (match i.rd with | some rd => regWrite s.x rd v | none => s.x) else s.x)
      pc := seqNextPc i a b s.pc
      dmem := (if c.memoryWrite then memWrite s.cfg.dmemSize s.dmem r (accessWidth i) b else s.dmem)
      retired := s.retired + 1 }

/-- `SeqStep(x, pc, dmem, retired)` (R188); the rest of the state stays. -/
def seqStep (s : State) : State := seqRun (snapshot (fetchedWord s)) s

/-- `n` steps of the reference. -/
def seqSteps : Nat → State → State
  | 0, s => s
  | n + 1, s => seqSteps n (seqStep s)

/-! The completion of the instructions in flight, oldest first: what the architectural state is once they have all
finished and nothing more has been fetched. MEM/WB and EX/MEM hold results, so those are committed as they are; the
instructions in ID/EX and IF/ID are run by the reference at their own addresses. -/

/-- The entry of MEM/WB written back (R172, R173). -/
def completeMemwb (s : State) : State :=
  { s with x := writebackRegs s, retired := writebackRetired s, memwb := none }

/-- The entry of EX/MEM through Memory and Writeback (R172 to R175). -/
def completeExmem (s : State) : State :=
  match s.exmem with
  | some m =>
    { s with
      dmem := m.storeTo s.cfg.dmemSize s.dmem
      x := (m.access s.cfg.dmemSize s.dmem).commit s.x
      retired := s.retired + retireCount m.instr
      exmem := none }
  | none => s

/-- The instruction of ID/EX, run by the reference at its own address. -/
def completeIdex (s : State) : State :=
  match s.idex with
  | some e => seqRun e.instr { s with pc := e.pc, idex := none }
  | none => s

/-- The instruction of IF/ID, run by the reference at its own address; with none, control is where Fetch is. -/
def completeIfid (fetchPc : Word) (s : State) : State :=
  match s.ifid with
  | some d => seqRun (snapshot d.raw) { s with pc := d.pc, ifid := none }
  | none => { s with pc := fetchPc }

/-- All instructions older than the one in Execute completed, and it and its followers not started (R154). -/
def olderThanExecute (s : State) : State := completeExmem (completeMemwb s)

/-- All instructions older than the one in Decode completed, and it not started (R154). -/
def olderThanDecode (s : State) : State := completeIdex (olderThanExecute s)

/-- The architectural state behind a pipeline state. -/
def complete (s : State) : State := completeIfid s.pc (olderThanDecode s)

/-- A tick whose fetch stays: Decode neither stalls nor redirects and Fetch does not stall (R184, last row). -/
def fetchKept (s : State) : Bool :=
  !decodeStalled s && (decodeRedirect s).isNone && !fetchStalled s

end Sys2Proof.Machine
end

