-- ==== Sys2Proof/Machine/Tick.lean ====
section
/-! DEFINITION. The pipeline driver: one clock tick, assembled from the stages (spec/42_pipeline_stages.md R170, R186),
and a clock edge with the reset input (spec/10_state.md R42). -/

namespace Sys2Proof.Machine

/-- `Tick(S)` (R186): "from every state there is exactly one next state". All fields are latched together (R38); the
constants of the run stay. -/
def tick (s : State) : State :=
  { x := writebackRegs s
    pc := nextPc s
    dmem := memoryData s
    ifid := nextIfid s
    idex := decodeStage s
    exmem := executeStage s
    memwb := memoryStage s
    cycle := s.cycle + 1
    retired := writebackRetired s
    cfg := s.cfg }

/-- A rising clock edge: "while asserted at a rising edge the state takes the reset values of rule R41 instead of
ticking" (R42, R342; log 14). -/
def clockEdge (rst : Bool) (s : State) : State := if rst then State.resetWith s.cfg else tick s

/-- The state after `n` ticks (R171: the end of a run is the state after tick number `N_CYCLES`). -/
def ticks : Nat → State → State
  | 0, s => s
  | n + 1, s => ticks n (tick s)

end Sys2Proof.Machine
end

