-- ==== Sys2Proof/Machine/Step.lean ====
section
/-! DEFINITION. One step is one clock tick: "`Tick` is a total deterministic function of `S` and the run constants ... It
has no fault, no stuck state and no refusal" (spec/42_pipeline_stages.md R186; R6). -/

namespace Sys2Proof.Machine

/-- One clock tick with `rst` low (R6, R170, R186). -/
def step (s : State) : Host.Outcome State Fault Refusal := .next (tick s)

/-- `s` with the instruction word `w` where the next tick fetches: word `pc[31:2]` of the image (R58). The pipeline
is emptied, so that nothing in flight stalls or flushes that fetch (R184): the word is the next instruction to run.
It stands for the host's load of a program (log 4). -/
def State.withFetchWord (s : State) (nbits w : Nat) : State :=
  { s with
    ifid := none
    idex := none
    exmem := none
    memwb := none
    cfg := { s.cfg with
      imem := placeWord s.cfg.imem (s.pc.extractLsb' 2 30).toNat (BitVec.ofNat 32 (w % 2 ^ nbits)) } }

end Sys2Proof.Machine
end

