-- ==== Sys2Proof/Machine/Interface.lean ====
section
/-! DEFINITION. What the block shows its host: the outputs of spec/10_state.md R42 as functions of the start-of-cycle
state, and the stage labels of spec/42_pipeline_stages.md R190, a diagram convention. Both memories answer in the cycle
they are asked (R42). Nothing here changes a state. -/

namespace Sys2Proof.Machine

/-- `imem_addr`: "`pc[31:2]`, the word index presented to the instruction memory by Fetch" (R42). -/
def imemAddr (s : State) : BitVec 30 := s.pc.extractLsb' 2 30

/-- `imem_data`: `IFetch(pc)` (R42). -/
def imemData (s : State) : Word := fetchedWord s

/-- The Memory stage's request (R42). The width is a number of bytes: the two-bit code of `dmem_width` is not given
(log 17). -/
structure DmemRequest where
  addr : Word
  width : Width
  readEnable : Bool
  writeEnable : Bool
  wdata : Word
  deriving DecidableEq, Repr

/-- `dmem_addr`, `dmem_width`, `dmem_re`, `dmem_we`, `dmem_wdata`: "address `EXMEM.aluResult`, width 1/2/4, read enable,
write enable, store data" (R42); with no entry in EX/MEM neither enable is set. -/
def dmemRequest (s : State) : DmemRequest :=
  match s.exmem with
  | some m =>
    { addr := m.aluResult, width := accessWidth m.instr, readEnable := m.ctrl.memoryRead,
      writeEnable := m.ctrl.memoryWrite, wdata := m.rs2Value }
  | none => { addr := 0#32, width := .word, readEnable := false, writeEnable := false, wdata := 0#32 }

/-- `dmem_rdata`: the `MemRead` result of the request (R42). -/
def dmemRdata (s : State) : Word := s.load (dmemRequest s).addr (dmemRequest s).width

/-- `retired_count` and `cycle_count` (R42). -/
def retiredCount (s : State) : Nat := s.retired
def cycleCount (s : State) : Nat := s.cycle

/-- "the host reads `x[1..31]` and `dmem` after the last tick" (R42). -/
def readOutRegister (s : State) (r : Reg) : Word := s.readReg r
def readOutByte (s : State) (a : Nat) : Byte := readByte s.dmem a

/-- The labels of R190; `fetchStalled` is its `if*`. -/
inductive StageLabel where
  | fetch | fetchStalled | decode | execute | memory | writeback | absent
  deriving DecidableEq, Repr

/-- Every label that R190's conditions give address `p` in the cycle that starts in `s`, in the order in which R190
lists them (decision D27). There can be two: `JAL x0,0` is in Execute and fetched again in cycle 3. -/
def stageLabels (s : State) (p : Word) : List StageLabel :=
  (if s.memwb.any (·.pc == p) then [.writeback] else [])
  ++ (if s.exmem.any (·.pc == p) then [.memory] else [])
  ++ (if s.idex.any (·.pc == p) then [.execute] else [])
  ++ (if s.ifid.any (·.pc == p) then [.decode] else [])
  ++ (if s.pc == p && !decodeStalled s then [if fetchStalled s then .fetchStalled else .fetch] else [])

/-- The one label a diagram shows. DESIGN CHOICE, the model's (log 23): R190 states no precedence where two of its
conditions hold, and this takes the oldest stage. -/
def stageLabel (s : State) (p : Word) : StageLabel := (stageLabels s p).headD .absent

end Sys2Proof.Machine
end

