-- ==== Sys2Proof/Safety.lean ====
section
/-! DEFINITION. What a safe run is, in the terms claims use (spec/60_exceptions.md R336), and the invariant of every
reachable pipeline state (spec/42_pipeline_stages.md R187; spec/41_hazard_forwarding.md R144, R152), and operand correctness
(R154). -/

namespace Sys2Proof

open Machine

/-- The Memory stage's access in this cycle, if it makes one, is in bounds: R336's "no load or store of this program
is out of bounds". -/
def Safe.accessInBounds (s : State) : Bool :=
  s.exmem.all fun m =>
    !(m.ctrl.memoryRead || m.ctrl.memoryWrite) || inBounds s.cfg.dmemSize m.aluResult (accessWidth m.instr)

/-- The instruction in Execute in this cycle, if there is one, is a defined one: R336's "no INVALID word is
executed". -/
def Safe.executesDefined (s : State) : Bool := s.idex.all fun e => e.instr.instr.isSome

/-- Both, in the first `n` cycles from `s`. -/
def Safe.run : Nat → State → Bool
  | 0, _ => true
  | n + 1, s => Safe.accessInBounds s && Safe.executesDefined s && Safe.run n (tick s)

/-- An entry of a pipeline register is the instruction its own address fetches, with the control signals of that
instruction (R121, R187 (a)). -/
def EntryOf (s : State) (pc : Word) (i : Snapshot) (c : Ctrl) : Prop :=
  i = snapshot (ifetch s.cfg.imem pc) ∧ c = controlSignals i

/-- What holds of every reachable state. -/
structure Consistent (s : State) : Prop where
  /-- the host's parameters are within R8's constraints -/
  config : s.cfg.accepted = true
  /-- "x[0] = 0" (R187 (d)) -/
  zero : s.x[0] = 0#32
  /-- the data memory is in canonical form and inside DMEM_SIZE (R33) -/
  memory : s.dmem.wf = true ∧ s.dmem.within s.cfg.dmemSize = true
  /-- IF/ID holds the word its own address fetches (R187 (a)), and Fetch is at the next one (R180, R182) -/
  ifidEntry : ∀ d ∈ s.ifid, d.raw = ifetch s.cfg.imem d.pc ∧ s.pc = d.pc + 4#32
  idexEntry : ∀ e ∈ s.idex, EntryOf s e.pc e.instr e.ctrl ∧ e.imm = e.instr.imm
  exmemEntry : ∀ m ∈ s.exmem, EntryOf s m.pc m.instr m.ctrl
  memwbEntry : ∀ w ∈ s.memwb, EntryOf s w.pc w.instr w.ctrl
  /-- the operands in ID/EX are those of the register file as it stands (R174, R178) -/
  latched : ∀ e ∈ s.idex, e.rs1Value = latchOperand s.x e.instr.rs1 ∧ e.rs2Value = latchOperand s.x e.instr.rs2
  /-- with forwarding, the instruction in ID/EX never depends on a load in EX/MEM (R152); without, on no producer in
  EX/MEM or MEM/WB (R144) -/
  available : ∀ e ∈ s.idex, ∀ r ∈ hazardSources e.instr,
    if s.cfg.forwarding then s.exmemLoads r = false
    else s.exmemProduces r = false ∧ s.memwbProduces r = false

/-- Operand correctness (R154): "the value used equals the value the register would hold if all earlier instructions in
program order had completed and no later one had started", for every register operand in Execute, and in Decode for those
of a branch or JALR that does not stall. -/
structure OperandsCorrect (s : State) : Prop where
  execute₁ : ∀ e ∈ s.idex, ∀ r, e.instr.rs1 = some r → (exOperands e s).1 = (olderThanExecute s).readReg r
  execute₂ : ∀ e ∈ s.idex, ∀ r, e.instr.rs2 = some r → (exOperands e s).2 = (olderThanExecute s).readReg r
  decode₁ : decodeStalled s = false → ∀ d ∈ s.ifid, isControlFlow (snapshot d.raw) = true →
    ∀ r, (snapshot d.raw).rs1 = some r → (resolveOperands d s).1 = (olderThanDecode s).readReg r
  decode₂ : decodeStalled s = false → ∀ d ∈ s.ifid, isControlFlow (snapshot d.raw) = true →
    ∀ r, (snapshot d.raw).rs2 = some r → (resolveOperands d s).2 = (olderThanDecode s).readReg r

end Sys2Proof
end

