-- ==== Sys2Proof/Certificates/Slice0/Obligations.lean ====
section
/-! DEFINITION. The statements for the provers. Numbers such as R211 are rules of spec/; D<n> are decisions the spec marks
as its own, and a statement that rests on one has basis 'derived' in OBLIGATIONS.json. -/

namespace Sys2Proof.Claims

open Sys2Proof.Machine

/-! ## The vocabulary of the statements -/

/-- Everything the architectural meaning of an instruction leaves alone: the pipeline registers, the cycle counter
and the constants of the run. -/
def SamePipeline (s t : State) : Prop :=
  t.ifid = s.ifid ∧ t.idex = s.idex ∧ t.exmem = s.exmem ∧ t.memwb = s.memwb ∧ t.cycle = s.cycle ∧ t.cfg = s.cfg

/-- Every byte of data memory reads as before. -/
def SameMemory (s t : State) : Prop := ∀ a, readByte t.dmem a = readByte s.dmem a

/-- Every register reads as before. -/
def SameRegisters (s t : State) : Prop := ∀ r, t.readReg r = s.readReg r

/-- `rd` reads as `v`, unless it is register 0, and every other register as before. -/
def RegistersWith (s t : State) (rd : Reg) (v : Word) : Prop :=
  ∀ r, t.readReg r = if r = rd ∧ rd ≠ 0 then v else s.readReg r

/-- `i` completes; its whole effect is `v` in `rd`, control at `npc` and one more retired instruction. -/
def WritesRegister (i : Instr) (s : State) (rd : Reg) (v npc : Word) : Prop :=
  ∃ t, exec i s = .next t ∧ RegistersWith s t rd v ∧ t.pc = npc ∧ t.retired = s.retired + 1
    ∧ SameMemory s t ∧ SamePipeline s t

/-- `i` completes; its whole effect is control at `npc` and one more retired instruction. -/
def OnlyTransfers (i : Instr) (s : State) (npc : Word) : Prop :=
  ∃ t, exec i s = .next t ∧ SameRegisters s t ∧ t.pc = npc ∧ t.retired = s.retired + 1
    ∧ SameMemory s t ∧ SamePipeline s t

/-- `i` completes; it stores the low `n` bytes of `v` from address `ea` on, the least significant lowest, if all of
them lie below DMEM_SIZE, and nothing otherwise; control goes to `pc + 4` and one more instruction is retired. -/
def StoresBytes (i : Instr) (s : State) (ea : Word) (n : Nat) (v : Word) : Prop :=
  ∃ t, exec i s = .next t
    ∧ (∀ a, readByte t.dmem a =
        if ea.toNat + n ≤ s.cfg.dmemSize ∧ ea.toNat ≤ a ∧ a < ea.toNat + n
        then v.extractLsb' (8 * (a - ea.toNat)) 8 else readByte s.dmem a)
    ∧ SameRegisters s t ∧ t.pc = s.pc + 4#32 ∧ t.retired = s.retired + 1 ∧ SamePipeline s t

/-- The number that the `n` bytes from address `ea` on stand for, least significant byte lowest; 0 when one of them
lies at DMEM_SIZE or above (R51 to R53). -/
def bytesAt (s : State) (ea : Word) (n : Nat) : Nat :=
  if ea.toNat + n ≤ s.cfg.dmemSize then
    ∑ k ∈ Finset.range n, (readByte s.dmem (ea.toNat + k)).toNat * 256 ^ k
  else 0

/-- The two's complement reading of the `bits`-bit number `v`. -/
def signedValue (bits v : Nat) : Int := if v < 2 ^ (bits - 1) then v else (v : Int) - 2 ^ bits

/-- 1 when the comparison holds, else 0. -/
def truth (p : Prop) [Decidable p] : Word := if p then 1#32 else 0#32

/-- The names of R3. -/
def mnemonic : Instr → String
  | .add _ _ _ => "ADD" | .sub _ _ _ => "SUB" | .sll _ _ _ => "SLL" | .slt _ _ _ => "SLT"
  | .sltu _ _ _ => "SLTU" | .xor _ _ _ => "XOR" | .srl _ _ _ => "SRL" | .sra _ _ _ => "SRA"
  | .or _ _ _ => "OR" | .and _ _ _ => "AND"
  | .addi _ _ _ => "ADDI" | .slti _ _ _ => "SLTI" | .sltiu _ _ _ => "SLTIU" | .xori _ _ _ => "XORI"
  | .ori _ _ _ => "ORI" | .andi _ _ _ => "ANDI" | .slli _ _ _ => "SLLI" | .srli _ _ _ => "SRLI"
  | .srai _ _ _ => "SRAI" | .lui _ _ => "LUI" | .auipc _ _ => "AUIPC"
  | .lb _ _ _ => "LB" | .lh _ _ _ => "LH" | .lw _ _ _ => "LW" | .lbu _ _ _ => "LBU" | .lhu _ _ _ => "LHU"
  | .sb _ _ _ => "SB" | .sh _ _ _ => "SH" | .sw _ _ _ => "SW"
  | .beq _ _ _ => "BEQ" | .bne _ _ _ => "BNE" | .blt _ _ _ => "BLT" | .bge _ _ _ => "BGE"
  | .bltu _ _ _ => "BLTU" | .bgeu _ _ _ => "BGEU" | .jal _ _ => "JAL" | .jalr _ _ _ => "JALR"

def regRegNames : List String := ["ADD", "SUB", "SLL", "SLT", "SLTU", "XOR", "SRL", "SRA", "OR", "AND"]
def regImmNames : List String := ["ADDI", "SLTI", "SLTIU", "XORI", "ORI", "ANDI", "SLLI", "SRLI", "SRAI"]
def loadNames : List String := ["LB", "LH", "LW", "LBU", "LHU"]
def storeNames : List String := ["SB", "SH", "SW"]
def branchNames : List String := ["BEQ", "BNE", "BLT", "BGE", "BLTU", "BGEU"]

/-- A row of the opcode table: mnemonic, match, mask, copied from spec/opcode_table.json. -/
def opcodeRows : List (String × Word × Word) :=
  [("ADD", 0x00000033#32, 0xFE00707F#32), ("SUB", 0x40000033#32, 0xFE00707F#32),
   ("SLL", 0x00001033#32, 0xFE00707F#32), ("SLT", 0x00002033#32, 0xFE00707F#32),
   ("SLTU", 0x00003033#32, 0xFE00707F#32), ("XOR", 0x00004033#32, 0xFE00707F#32),
   ("SRL", 0x00005033#32, 0xFE00707F#32), ("SRA", 0x40005033#32, 0xFE00707F#32),
   ("OR", 0x00006033#32, 0xFE00707F#32), ("AND", 0x00007033#32, 0xFE00707F#32)]
  ++ [("ADDI", 0x00000013#32, 0x0000707F#32), ("SLTI", 0x00002013#32, 0x0000707F#32),
   ("SLTIU", 0x00003013#32, 0x0000707F#32), ("XORI", 0x00004013#32, 0x0000707F#32),
   ("ORI", 0x00006013#32, 0x0000707F#32), ("ANDI", 0x00007013#32, 0x0000707F#32),
   ("SLLI", 0x00001013#32, 0xFE00707F#32), ("SRLI", 0x00005013#32, 0xFE00707F#32),
   ("SRAI", 0x40005013#32, 0xFE00707F#32)]
  ++ [("LUI", 0x00000037#32, 0x0000007F#32), ("AUIPC", 0x00000017#32, 0x0000007F#32),
   ("LB", 0x00000003#32, 0x0000707F#32), ("LH", 0x00001003#32, 0x0000707F#32),
   ("LW", 0x00002003#32, 0x0000707F#32), ("LBU", 0x00004003#32, 0x0000707F#32),
   ("LHU", 0x00005003#32, 0x0000707F#32), ("SB", 0x00000023#32, 0x0000707F#32),
   ("SH", 0x00001023#32, 0x0000707F#32), ("SW", 0x00002023#32, 0x0000707F#32)]
  ++ [("BEQ", 0x00000063#32, 0x0000707F#32), ("BNE", 0x00001063#32, 0x0000707F#32),
   ("BLT", 0x00004063#32, 0x0000707F#32), ("BGE", 0x00005063#32, 0x0000707F#32),
   ("BLTU", 0x00006063#32, 0x0000707F#32), ("BGEU", 0x00007063#32, 0x0000707F#32),
   ("JALR", 0x00000067#32, 0x0000707F#32), ("JAL", 0x0000006F#32, 0x0000007F#32)]

/-- The names of the Boolean control signals that are set, in R120's order. -/
def signalsSet (c : Ctrl) : List String :=
  (if c.registerWrite then ["registerWrite"] else []) ++ (if c.memoryRead then ["memoryRead"] else [])
  ++ (if c.memoryWrite then ["memoryWrite"] else []) ++ (if c.memoryToRegister then ["memoryToRegister"] else [])
  ++ (if c.aluSourceIsImmediate then ["aluSourceIsImmediate"] else [])
  ++ (if c.isBranch then ["isBranch"] else []) ++ (if c.isJump then ["isJump"] else [])

end Sys2Proof.Claims

open Sys2Proof Sys2Proof.Machine Sys2Proof.Claims

/-! ## The encoding (spec/30_encoding.md) -/

/-- R108, first half: "for every word produced by re-encoding a valid instruction, decoding recovers the identical
opcode, format, operand indices, and immediate". The bit positions are decision D1 (log 8). -/
def Obligations.DecodeOfEncodeIsTheInstruction : Prop :=
  ∀ i : Instr, i.wf = true → decode (encode i) = .ok i

/-- R108, second half, which the spec derives: "no bit of a defined instruction word is ignored by the decoder". -/
def Obligations.EncodeOfDecodeIsTheWord : Prop :=
  ∀ (w : Word) (i : Instr), decode w = .ok i → i.wf = true ∧ encode i = w

/-- R96 to R104: a word is an instruction exactly when it matches a row of the opcode table, and then that row's.
The rows' numbers are decision D1 (log 8). -/
def Obligations.DefinedWordsAreTheOpcodeTableRows : Prop :=
  ∀ w : Word,
    (∀ i, decode w = .ok i → ∃ row ∈ opcodeRows, row.1 = mnemonic i ∧ w &&& row.2.2 = row.2.1)
    ∧ (∀ row ∈ opcodeRows, w &&& row.2.2 = row.2.1 → ∃ i, decode w = .ok i ∧ mnemonic i = row.1)

/-- R82 to R89: which register fields each format has, and where they stand in the word (decision D1, log 8). -/
def Obligations.RegisterFieldsOfADecodedWord : Prop :=
  ∀ (w : Word) (i : Instr), decode w = .ok i →
    (i.rd.isSome = true ↔ i.fmt = .r ∨ i.fmt = .i ∨ i.fmt = .u ∨ i.fmt = .j)
    ∧ (i.rs1.isSome = true ↔ i.fmt = .r ∨ i.fmt = .i ∨ i.fmt = .s ∨ i.fmt = .b)
    ∧ (i.rs2.isSome = true ↔ i.fmt = .r ∨ i.fmt = .s ∨ i.fmt = .b)
    ∧ (∀ d, i.rd = some d → d.val = w.toNat / 2 ^ 7 % 2 ^ 5)
    ∧ (∀ a, i.rs1 = some a → a.val = w.toNat / 2 ^ 15 % 2 ^ 5)
    ∧ (∀ b, i.rs2 = some b → b.val = w.toNat / 2 ^ 20 % 2 ^ 5)

/-- R90 to R94: the value of each format's immediate, as a sum of its bit groups (decision D1, log 8). -/
def Obligations.ImmediateOfADecodedWord : Prop :=
  ∀ (w : Word) (i : Instr), decode w = .ok i →
    let n := w.toNat
    (i.fmt = .r → i.imm = 0#32)
    ∧ (i.fmt = .i → i.imm.toInt = (n / 2 ^ 20 : Nat) - 2 ^ 12 * (n / 2 ^ 31 : Nat))
    ∧ (i.fmt = .s → i.imm.toInt =
        (2 ^ 5 * (n / 2 ^ 25) + n / 2 ^ 7 % 2 ^ 5 : Nat) - 2 ^ 12 * (n / 2 ^ 31 : Nat))
    ∧ (i.fmt = .b → i.imm.toInt =
        (2 * (n / 2 ^ 8 % 2 ^ 4) + 2 ^ 5 * (n / 2 ^ 25 % 2 ^ 6) + 2 ^ 11 * (n / 2 ^ 7 % 2) : Nat)
          - 2 ^ 12 * (n / 2 ^ 31 : Nat))
    ∧ (i.fmt = .u → i.imm.toNat = n / 2 ^ 12 * 2 ^ 12)
    ∧ (i.fmt = .j → i.imm.toInt =
        (2 * (n / 2 ^ 21 % 2 ^ 10) + 2 ^ 11 * (n / 2 ^ 20 % 2) + 2 ^ 12 * (n / 2 ^ 12 % 2 ^ 8) : Nat)
          - 2 ^ 20 * (n / 2 ^ 31 : Nat))

/-- Words of spec/95_test_vectors.md section 2.1, one per family, decode to what they stand for (decision D1). -/
def Obligations.SampleWordsDecode : Prop :=
  decode 0x402081B3#32 = .ok (.sub 3 1 2)
  ∧ decode 0x41F0D193#32 = .ok (.srai 3 1 0x41F#32)
  ∧ decode 0xABCDE2B7#32 = .ok (.lui 5 0xABCDE000#32)
  ∧ decode 0xFFC11283#32 = .ok (.lh 5 2 0xFFFFFFFC#32)
  ∧ decode 0xFE511E23#32 = .ok (.sh 2 5 0xFFFFFFFC#32)
  ∧ decode 0x7E208FE3#32 = .ok (.beq 1 2 0x00000FFE#32)
  ∧ decode 0xFFE280E7#32 = .ok (.jalr 1 5 0xFFFFFFFE#32)
  ∧ decode 0x7FFFF0EF#32 = .ok (.jal 1 0x000FFFFE#32)
  ∧ decode 0x00000000#32 = .error (.opcode 0#7)
  ∧ decode 0x00100073#32 = .error (.opcode 0x73#7)

/-! ## What each instruction does, run alone (R188; spec/43 to spec/48) -/

/-- 43_alu_reg_reg.md, the effects of R210 to R220, in integers: each of the ten completes in every state, for every
operand, register 0 and rd equal to a source included. -/
def Obligations.RegRegInstructionsComplete : Prop :=
  ∀ (s : State) (rd rs1 rs2 : Reg),
    let a := s.readReg rs1
    let b := s.readReg rs2
    let n := s.pc + 4#32
    WritesRegister (.add rd rs1 rs2) s rd (BitVec.ofNat 32 (a.toNat + b.toNat)) n
    ∧ WritesRegister (.sub rd rs1 rs2) s rd (BitVec.ofInt 32 (a.toInt - b.toInt)) n
    ∧ WritesRegister (.sll rd rs1 rs2) s rd (BitVec.ofNat 32 (a.toNat * 2 ^ (b.toNat % 32))) n
    ∧ WritesRegister (.slt rd rs1 rs2) s rd (truth (a.toInt < b.toInt)) n
    ∧ WritesRegister (.sltu rd rs1 rs2) s rd (truth (a.toNat < b.toNat)) n
    ∧ WritesRegister (.xor rd rs1 rs2) s rd (a ^^^ b) n
    ∧ WritesRegister (.srl rd rs1 rs2) s rd (BitVec.ofNat 32 (a.toNat / 2 ^ (b.toNat % 32))) n
    ∧ WritesRegister (.sra rd rs1 rs2) s rd (BitVec.ofInt 32 (a.toInt / 2 ^ (b.toNat % 32))) n
    ∧ WritesRegister (.or rd rs1 rs2) s rd (a ||| b) n
    ∧ WritesRegister (.and rd rs1 rs2) s rd (a &&& b) n

/-- 44_alu_imm.md, the effects of R230 to R239, in integers: each of the nine completes in every state, for every
operand; the amount of a shift is `imm[4:0]`. -/
def Obligations.RegImmInstructionsComplete : Prop :=
  ∀ (s : State) (rd rs1 : Reg) (imm : Word),
    let a := s.readReg rs1
    let n := s.pc + 4#32
    WritesRegister (.addi rd rs1 imm) s rd (BitVec.ofInt 32 (a.toInt + imm.toInt)) n
    ∧ WritesRegister (.slti rd rs1 imm) s rd (truth (a.toInt < imm.toInt)) n
    ∧ WritesRegister (.sltiu rd rs1 imm) s rd (truth (a.toNat < imm.toNat)) n
    ∧ WritesRegister (.xori rd rs1 imm) s rd (a ^^^ imm) n
    ∧ WritesRegister (.ori rd rs1 imm) s rd (a ||| imm) n
    ∧ WritesRegister (.andi rd rs1 imm) s rd (a &&& imm) n
    ∧ WritesRegister (.slli rd rs1 imm) s rd (BitVec.ofNat 32 (a.toNat * 2 ^ (imm.toNat % 32))) n
    ∧ WritesRegister (.srli rd rs1 imm) s rd (BitVec.ofNat 32 (a.toNat / 2 ^ (imm.toNat % 32))) n
    ∧ WritesRegister (.srai rd rs1 imm) s rd (BitVec.ofInt 32 (a.toInt / 2 ^ (imm.toNat % 32))) n

/-- 45_upper_imm.md, the effects of R251 and R252: LUI writes the immediate, AUIPC its own address plus the
immediate; both complete in every state. -/
def Obligations.UpperImmInstructionsComplete : Prop :=
  ∀ (s : State) (rd : Reg) (imm : Word),
    WritesRegister (.lui rd imm) s rd imm (s.pc + 4#32)
    ∧ WritesRegister (.auipc rd imm) s rd (BitVec.ofNat 32 (s.pc.toNat + imm.toNat)) (s.pc + 4#32)

/-- 46_loads_stores.md, the effects of R262 to R267: each load completes in every state at every address, misaligned
and out-of-bounds ones included, and writes the extended value of the bytes. The byte order is decision D5 (log 7),
the address decision D14 (log 20). -/
def Obligations.LoadsComplete : Prop :=
  ∀ (s : State) (rd rs1 : Reg) (imm : Word),
    let ea := effectiveAddress (s.readReg rs1) imm
    let n := s.pc + 4#32
    WritesRegister (.lb rd rs1 imm) s rd (BitVec.ofInt 32 (signedValue 8 (bytesAt s ea 1))) n
    ∧ WritesRegister (.lh rd rs1 imm) s rd (BitVec.ofInt 32 (signedValue 16 (bytesAt s ea 2))) n
    ∧ WritesRegister (.lw rd rs1 imm) s rd (BitVec.ofNat 32 (bytesAt s ea 4)) n
    ∧ WritesRegister (.lbu rd rs1 imm) s rd (BitVec.ofNat 32 (bytesAt s ea 1)) n
    ∧ WritesRegister (.lhu rd rs1 imm) s rd (BitVec.ofNat 32 (bytesAt s ea 2)) n

/-- 46_loads_stores.md, the effects of R268 to R271, byte by byte: each store completes at every address. The data
memory is in canonical form, which every step keeps (StepKeepsConsistent). Decisions D5, D6, D7, D14. -/
def Obligations.StoresComplete : Prop :=
  ∀ (s : State) (rs1 rs2 : Reg) (imm : Word), s.dmem.wf = true →
    let ea := effectiveAddress (s.readReg rs1) imm
    StoresBytes (.sb rs1 rs2 imm) s ea 1 (s.readReg rs2)
    ∧ StoresBytes (.sh rs1 rs2 imm) s ea 2 (s.readReg rs2)
    ∧ StoresBytes (.sw rs1 rs2 imm) s ea 4 (s.readReg rs2)

/-- 47_control_transfer.md, the effects of R281 to R287, in integers: each branch completes in every state, taken or
not, and changes nothing but the program counter. The target is decision D13 (log 20). -/
def Obligations.BranchesComplete : Prop :=
  ∀ (s : State) (rs1 rs2 : Reg) (imm : Word),
    let a := s.readReg rs1
    let b := s.readReg rs2
    let taken := BitVec.ofInt 32 (s.pc.toInt + imm.toInt)
    let next := s.pc + 4#32
    OnlyTransfers (.beq rs1 rs2 imm) s (if a = b then taken else next)
    ∧ OnlyTransfers (.bne rs1 rs2 imm) s (if a = b then next else taken)
    ∧ OnlyTransfers (.blt rs1 rs2 imm) s (if a.toInt < b.toInt then taken else next)
    ∧ OnlyTransfers (.bge rs1 rs2 imm) s (if b.toInt ≤ a.toInt then taken else next)
    ∧ OnlyTransfers (.bltu rs1 rs2 imm) s (if a.toNat < b.toNat then taken else next)
    ∧ OnlyTransfers (.bgeu rs1 rs2 imm) s (if b.toNat ≤ a.toNat then taken else next)

/-- 47_control_transfer.md, the effects of R288 to R290: both jumps complete in every state, write the link, and JALR
reads rs1 before rd is written and clears bit 0 of the sum. The targets are decision D13 (log 20). -/
def Obligations.JumpsComplete : Prop :=
  ∀ (s : State) (rd rs1 : Reg) (imm : Word),
    WritesRegister (.jal rd imm) s rd (s.pc + 4#32) (BitVec.ofInt 32 (s.pc.toInt + imm.toInt))
    ∧ WritesRegister (.jalr rd rs1 imm) s rd (s.pc + 4#32)
        (BitVec.ofNat 32 (((s.readReg rs1).toNat + imm.toNat) % 2 ^ 32 / 2 * 2))

/-- 48_invalid_and_system.md R300 and 20_memory.md R59 for the reference: a word that is no instruction only moves the
program counter and is not counted; the zero word of a fetch beyond the image is one. -/
def Obligations.InvalidOnlyAdvancesThePc : Prop :=
  (∀ (s : State) (r : Rejection), decode (fetchedWord s) = .error r →
    ∃ t, referenceStep s = .next t ∧ t.pc = s.pc + 4#32 ∧ t.retired = s.retired
      ∧ SameRegisters s t ∧ SameMemory s t ∧ SamePipeline s t)
  ∧ ∀ s : State, s.cfg.imem.length ≤ s.pc.toNat / 4 →
      ∃ t, referenceStep s = .next t ∧ t.pc = s.pc + 4#32 ∧ t.retired = s.retired
        ∧ SameRegisters s t ∧ SameMemory s t ∧ SamePipeline s t

/-- The frame over all instructions: only rd and, for a store, the bytes from its effective address on change beside the
program counter and the retired count (10_state.md sections 2 and 5, R54). -/
def Obligations.InstructionChangesOnlyItsDestination : Prop :=
  ∀ (i : Instr) (s t : State), exec i s = .next t →
    (∀ r, i.rd ≠ some r → t.readReg r = s.readReg r)
    ∧ (mnemonic i ∉ storeNames → SameMemory s t)
    ∧ (∀ rs1 rs2 imm n, i = .sb rs1 rs2 imm ∧ n = 1 ∨ i = .sh rs1 rs2 imm ∧ n = 2 ∨ i = .sw rs1 rs2 imm ∧ n = 4 →
        let ea := effectiveAddress (s.readReg rs1) imm
        ∀ a, a < ea.toNat ∨ ea.toNat + n ≤ a → readByte t.dmem a = readByte s.dmem a)
    ∧ t.retired = s.retired + 1 ∧ SamePipeline s t

/-- An instruction reads only the registers of `Sources` (41_hazard_forwarding.md section 1), the program counter and
the data memory: two states that agree on these give the same results, whatever else they hold. -/
def Obligations.InstructionReadsOnlyItsSources : Prop :=
  ∀ (i : Instr) (raw : Word) (s₁ s₂ t₁ t₂ : State),
    s₁.pc = s₂.pc → s₁.dmem = s₂.dmem → s₁.cfg.dmemSize = s₂.cfg.dmemSize →
    (∀ r ∈ sources { raw := raw, instr := some i }, s₁.readReg r = s₂.readReg r) →
    exec i s₁ = .next t₁ → exec i s₂ = .next t₂ →
      t₁.pc = t₂.pc ∧ t₁.dmem = t₂.dmem ∧ ∀ rd, i.rd = some rd → t₁.readReg rd = t₂.readReg rd

/-- The meanings of the 37 instructions are R188's `SeqStep` over the control unit and the ALU, which the pipeline
uses: two descriptions of the spec agree in every state. -/
def Obligations.MeaningsAreTheReferenceStep : Prop :=
  ∀ s : State, referenceStep s = .next (seqStep s)

/-! ## Registers, memory, fetch -/

/-- R22: register 0 reads as 0, drops writes, and the hazard and forwarding units exclude it. -/
def Obligations.RegisterZeroIsHardwired : Prop :=
  (∀ s : State, s.readReg 0 = 0#32)
  ∧ (∀ (x : Vector Word 32) (v : Word), regWrite x 0 v = x)
  ∧ (∀ (s t : State), step s = .next t → t.x[0] = s.x[0] ∧ t.readReg 0 = 0#32)
  ∧ (∀ (i : Snapshot) (c : Ctrl), produces i c 0 = false ∧ 0 ∉ hazardSources i)
  ∧ ∀ (v : Word) (s : State), forwardValue (some 0) v s = v

/-- R51 to R54: what a write in bounds leaves is what a read of the same width gives, extended with zeros; out of
bounds a read gives 0 and a write does nothing. Decisions D5 and D7 (logs 7, 15). -/
def Obligations.MemoryReadsBackWhatWasWritten : Prop :=
  ∀ (size : Nat) (m : Memory) (addr : Word) (n : Width) (v : Word), m.wf = true →
    (inBounds size addr n = true →
      (memRead size (memWrite size m addr n v) addr n).toNat = v.toNat % 2 ^ (8 * n.bytes))
    ∧ (inBounds size addr n = false → memRead size m addr n = 0#32 ∧ memWrite size m addr n v = m)

/-- R51: a narrower read of a stored word sees its bytes, the byte `k` above the address being bits 8k+7 to 8k of the
word, for every word, every in-bounds address and every narrower read inside the word; R51's example 0x12345678 among
them (decision D5, log 7). -/
def Obligations.NarrowReadsSeeTheBytesOfAWord : Prop :=
  ∀ (size : Nat) (m : Memory) (addr v : Word), m.wf = true → addr.toNat + 4 ≤ size →
    size ≤ 2 ^ 31 →
    let m' := memWrite size m addr .word v
    (∀ k < 4, memRead size m' (addr + BitVec.ofNat 32 k) .byte = (v.extractLsb' (8 * k) 8).zeroExtend 32)
    ∧ (∀ k ≤ 2, memRead size m' (addr + BitVec.ofNat 32 k) .half = (v.extractLsb' (8 * k) 16).zeroExtend 32)

/-- R58, R59: the word at index pc[31:2] of the image, whatever the two low bits; beyond the image the zero word,
which is INVALID. The index is decision D8 (log 15). -/
def Obligations.FetchReadsTheImageByWord : Prop :=
  ∀ (imem : List Word) (pc : Word),
    (∀ h : pc.toNat / 4 < imem.length, ifetch imem pc = imem[pc.toNat / 4])
    ∧ (imem.length ≤ pc.toNat / 4 → ifetch imem pc = 0#32 ∧ ∃ r, decode (ifetch imem pc) = .error r)
    ∧ ifetch imem (pc &&& 0xFFFFFFFC#32) = ifetch imem pc

/-! ## The control, hazard and forwarding units -/

/-- R122: the signals set for each class. -/
def Obligations.ControlSignalsByClass : Prop :=
  (∀ (i : Instr) (raw : Word),
    let set := signalsSet (controlSignals { raw := raw, instr := some i })
    (mnemonic i ∈ regRegNames → set = ["registerWrite"])
    ∧ (mnemonic i ∈ regImmNames → set = ["registerWrite", "aluSourceIsImmediate"])
    ∧ (mnemonic i ∈ loadNames →
        set = ["registerWrite", "memoryRead", "memoryToRegister", "aluSourceIsImmediate"])
    ∧ (mnemonic i = "JALR" → set = ["registerWrite", "isJump"])
    ∧ (mnemonic i ∈ storeNames → set = ["memoryWrite", "aluSourceIsImmediate"])
    ∧ (mnemonic i ∈ branchNames → set = ["isBranch"])
    ∧ (mnemonic i = "LUI" → set = ["registerWrite", "aluSourceIsImmediate"])
    ∧ (mnemonic i = "AUIPC" → set = ["registerWrite", "aluSourceIsImmediate"])
    ∧ (mnemonic i = "JAL" → set = ["registerWrite", "isJump"]))
  ∧ ∀ raw : Word, signalsSet (controlSignals { raw := raw, instr := none }) = []

/-- R123, (a) to (h), which the spec derives from R122. -/
def Obligations.ControlTableInvariants : Prop :=
  ∀ i : Snapshot, let c := controlSignals i
    (c.memoryToRegister = c.memoryRead)
    ∧ (c.memoryRead = true → c.registerWrite = true)
    ∧ (c.memoryWrite = true → c.registerWrite = false ∧ c.memoryRead = false)
    ∧ (c.isBranch = true → signalsSet c = ["isBranch"])
    ∧ (¬ (c.isBranch = true ∧ c.isJump = true))
    ∧ (c.registerWrite = true → i.rd.isSome = true)
    ∧ (c.registerWrite = false ↔ i.fmt = .s ∨ i.fmt = .b ∨ i.fmt = .none)
    ∧ (signalsSet c = [] ↔ i.instr = none)

/-- R140: "U/J formats use neither register, B/S/R use both, I-forms use rs1 only"; INVALID reads none; register 0 is
left out of the hazard sources. -/
def Obligations.SourcesByFormat : Prop :=
  ∀ (i : Snapshot) (r : Reg),
    (r ∈ sources i ↔
      (i.fmt = .r ∨ i.fmt = .s ∨ i.fmt = .b) ∧ (i.rs1 = some r ∨ i.rs2 = some r)
      ∨ i.fmt = .i ∧ i.rs1 = some r)
    ∧ (i.instr = none → sources i = [])
    ∧ (i.fmt = .u ∨ i.fmt = .j → sources i = [])
    ∧ (r ∈ hazardSources i ↔ r ∈ sources i ∧ r ≠ 0)

/-- R142: control flow is a branch, JAL or JALR, equivalently isBranch or isJump. -/
def Obligations.ControlFlowIsBranchOrJump : Prop :=
  ∀ i : Snapshot,
    (isControlFlow i = true ↔
      ∃ j, i.instr = some j ∧ (mnemonic j ∈ branchNames ∨ mnemonic j = "JAL" ∨ mnemonic j = "JALR"))
    ∧ (isControlFlow i = true ↔ (controlSignals i).isBranch = true ∨ (controlSignals i).isJump = true)

/-- R150: the source of an operand: EX/MEM's ALU result, else MEM/WB's committed value, else the latched value; for each
ALU operand independently, and only when forwarding is enabled. -/
def Obligations.ForwardingPriority : Prop :=
  (∀ (s : State) (e : IdEx),
    (s.cfg.forwarding = true → exOperands e s =
      (forwardValue e.instr.rs1 e.rs1Value s, forwardValue e.instr.rs2 e.rs2Value s))
    ∧ (s.cfg.forwarding = false → exOperands e s = (e.rs1Value, e.rs2Value)))
  ∧ ∀ (s : State) (r : Reg) (latched : Word), r ≠ 0 →
    (∀ m ∈ s.exmem, produces m.instr m.ctrl r = true → forwardValue (some r) latched s = m.aluResult)
    ∧ (s.exmemProduces r = false → ∀ w ∈ s.memwb, produces w.instr w.ctrl r = true →
        forwardValue (some r) latched s = if w.ctrl.memoryToRegister then w.memData else w.aluResult)
    ∧ (s.exmemProduces r = false → s.memwbProduces r = false → forwardValue (some r) latched s = latched)
    ∧ forwardValue none latched s = latched ∧ forwardValue (some 0) latched s = latched

/-- 41_hazard_forwarding.md, the consequences of R147 and R148: an instruction with no hazard source, and so every
INVALID word, LUI, AUIPC and JAL, stalls neither in Decode nor at Fetch. -/
def Obligations.NoHazardSourceMeansNoStall : Prop :=
  ∀ (i : Snapshot) (s : State),
    (hazardSources i = [] → decodeStall i s = false ∧ fetchStall i s = false)
    ∧ (i.fmt = .u ∨ i.fmt = .j ∨ i.fmt = .none → hazardSources i = [])

/-- 70_reset_and_hazards.md section 4, the k = 1 column of R352, and R361 (a): with forwarding one stall cycle for an
ordinary consumer of a load, one for a branch or JALR after another producer, two after a load; three cycles without
forwarding. Decisions D15 and D20 (log 13). -/
def Obligations.StallCyclesOfAdjacentDependence : Prop :=
  ∀ (s : State) (d : IfId) (e : IdEx) (r : Reg),
    s.ifid = some d → s.idex = some e → r ∈ hazardSources (snapshot d.raw) →
    produces e.instr e.ctrl r = true →
    (s.cfg.forwarding = true → e.ctrl.memoryRead = true → isControlFlow (snapshot d.raw) = false →
      decodeStalled s = true ∧ decodeStalled (tick s) = false)
    ∧ (s.cfg.forwarding = true → e.ctrl.memoryRead = false → isControlFlow (snapshot d.raw) = true →
      decodeStalled s = true ∧ decodeStalled (tick s) = false)
    ∧ (s.cfg.forwarding = true → e.ctrl.memoryRead = true → isControlFlow (snapshot d.raw) = true →
      decodeStalled s = true ∧ decodeStalled (tick s) = true ∧ decodeStalled (ticks 2 s) = false)
    ∧ (s.cfg.forwarding = false →
      decodeStalled s = true ∧ decodeStalled (tick s) = true ∧ decodeStalled (ticks 2 s) = true
      ∧ decodeStalled (ticks 3 s) = false)

/-! ## The clock tick -/

/-- 42_pipeline_stages.md section 7: the step is total, and so is every meaning: no fault, no refusal (60_exceptions.md
section 1). -/
def Obligations.EveryStepAndMeaningAnswersNext : Prop :=
  (∀ s : State, ∃ t, step s = .next t) ∧ ∀ (i : Instr) (s : State), ∃ t, exec i s = .next t

/-- R27, R184: the program counter and IF/ID after a tick, in priority order: redirect, decode stall, fetch stall,
sequential fetch. That a fetch stall puts a bubble into IF/ID is decision D17 (log 13). -/
def Obligations.ProgramCounterPriority : Prop :=
  ∀ s : State, ∃ t, step s = .next t
    ∧ (∀ target, decodeRedirect s = some target → t.pc = target ∧ t.ifid = none)
    ∧ (decodeRedirect s = none → decodeStalled s = true → t.pc = s.pc ∧ t.ifid = s.ifid)
    ∧ (decodeRedirect s = none → decodeStalled s = false →
        fetchStall (snapshot (ifetch s.cfg.imem s.pc)) s = true → t.pc = s.pc ∧ t.ifid = none)
    ∧ (decodeRedirect s = none → decodeStalled s = false →
        fetchStall (snapshot (ifetch s.cfg.imem s.pc)) s = false →
        t.pc = s.pc + 4#32 ∧ t.ifid = some { pc := s.pc, raw := ifetch s.cfg.imem s.pc })

/-- 42_pipeline_stages.md section 5 (R179): where a branch or jump in Decode redirects to, in terms of the operand
values; a stalled one causes no redirect, nor does an INVALID word (R300) or an empty IF/ID. Targets: decision D13
(log 20). -/
def Obligations.RedirectsOfDecode : Prop :=
  (∀ s : State, s.ifid = none → decodeRedirect s = none)
  ∧ (∀ (s : State) (d : IfId) (r : Rejection), s.ifid = some d → decode d.raw = .error r → decodeRedirect s = none)
  ∧ ∀ (s : State) (d : IfId) (i : Instr), s.ifid = some d → decode d.raw = .ok i →
    (decodeStalled s = true → decodeRedirect s = none)
    ∧ (decodeStalled s = false →
      let v₁ := latchOperand (writebackRegs s) i.rs1
      let v₂ := latchOperand (writebackRegs s) i.rs2
      let a := if s.cfg.forwarding then forwardValue i.rs1 v₁ s else v₁
      let b := if s.cfg.forwarding then forwardValue i.rs2 v₂ s else v₂
      decodeRedirect s =
        match i with
        | .beq _ _ imm => if a = b then some (d.pc + imm) else none
        | .bne _ _ imm => if a = b then none else some (d.pc + imm)
        | .blt _ _ imm => if a.toInt < b.toInt then some (d.pc + imm) else none
        | .bge _ _ imm => if b.toInt ≤ a.toInt then some (d.pc + imm) else none
        | .bltu _ _ imm => if a.toNat < b.toNat then some (d.pc + imm) else none
        | .bgeu _ _ imm => if b.toNat ≤ a.toNat then some (d.pc + imm) else none
        | .jal _ imm => some (d.pc + imm)
        | .jalr _ _ imm => some ((a + imm) &&& 0xFFFFFFFE#32)
        | _ => none)

/-- R172: the only register a tick changes is the destination of the entry in MEM/WB, if registerWrite is set and it
is not register 0; it takes the memory-read data if memoryToRegister, else the ALU result. -/
def Obligations.WritebackCommitsOneRegister : Prop :=
  ∀ s : State, ∃ t, step s = .next t
    ∧ (∀ (w : MemWb) (rd : Reg), s.memwb = some w → w.ctrl.registerWrite = true → w.instr.rd = some rd →
        RegistersWith s t rd (if w.ctrl.memoryToRegister then w.memData else w.aluResult))
    ∧ ((∀ w ∈ s.memwb, w.ctrl.registerWrite = false ∨ w.instr.rd = none) → SameRegisters s t)

/-- R173, with decision D19: `retired` counts the valid entries of MEM/WB that are not INVALID. -/
def Obligations.RetiredCountsDefinedInstructions : Prop :=
  ∀ s : State, ∃ t, step s = .next t
    ∧ t.retired = s.retired + (if ∃ w ∈ s.memwb, w.instr.instr ≠ none then 1 else 0)

/-- R185: every tick adds one to `cycle`, and no instruction's own effect does. -/
def Obligations.CycleCountsTicks : Prop :=
  (∀ s : State, ∃ t, step s = .next t ∧ t.cycle = s.cycle + 1)
  ∧ ∀ (i : Instr) (s t : State), exec i s = .next t → t.cycle = s.cycle

/-- 42_pipeline_stages.md section 3 and 20_memory.md section 3: a tick changes only the bytes that the store in EX/MEM
writes, all or none of them. The address is the one the entry carries. Decisions D5, D7 (logs 7, 15). -/
def Obligations.OnlyTheStoreInMemoryChangesMemory : Prop :=
  ∀ s : State, s.dmem.wf = true → ∃ t, step s = .next t
    ∧ (∀ m, s.exmem = some m → m.ctrl.memoryWrite = true → ∀ a, readByte t.dmem a =
        if m.aluResult.toNat + (accessWidth m.instr).bytes ≤ s.cfg.dmemSize
            ∧ m.aluResult.toNat ≤ a ∧ a < m.aluResult.toNat + (accessWidth m.instr).bytes
        then m.rs2Value.extractLsb' (8 * (a - m.aluResult.toNat)) 8 else readByte s.dmem a)
    ∧ ((∀ m ∈ s.exmem, m.ctrl.memoryWrite = false) → SameMemory s t)

/-- 42_pipeline_stages.md section 3 (R175): what Memory hands to MEM/WB; a load's data is read from the memory at the
start of the cycle. The filler 0 of a non-load is decision D21 (log 11). -/
def Obligations.MemoryStageFillsMemwb : Prop :=
  ∀ s : State, ∃ t, step s = .next t
    ∧ (s.exmem = none → t.memwb = none)
    ∧ ∀ m, s.exmem = some m → ∃ w, t.memwb = some w ∧ w.pc = m.pc ∧ w.instr = m.instr ∧ w.ctrl = m.ctrl
      ∧ w.aluResult = m.aluResult
      ∧ (m.ctrl.memoryRead = true → w.memData =
          loadExtend m.instr (memRead s.cfg.dmemSize s.dmem m.aluResult (accessWidth m.instr)))
      ∧ (m.ctrl.memoryRead = false → w.memData = 0#32)

/-- R176: what Execute hands to EX/MEM: the ALU's result on the forwarded or latched operands, the second replaced by
the immediate when aluSourceIsImmediate is set, and the register operand as store data. The values of the two dead
fields are decision D21 (log 11). -/
def Obligations.ExecuteStageFillsExmem : Prop :=
  ∀ s : State, ∃ t, step s = .next t
    ∧ (s.idex = none → t.exmem = none)
    ∧ ∀ e, s.idex = some e →
      let a := if s.cfg.forwarding then forwardValue e.instr.rs1 e.rs1Value s else e.rs1Value
      let b := if s.cfg.forwarding then forwardValue e.instr.rs2 e.rs2Value s else e.rs2Value
      t.exmem = some
        { pc := e.pc, instr := e.instr, ctrl := e.ctrl
          aluResult := alu e.ctrl.aluOp a (if e.ctrl.aluSourceIsImmediate then e.imm else b) e.pc e.imm
          rs2Value := b, branchTaken := false, branchTarget := 0#32 }

/-- 42_pipeline_stages.md section 5 and 10_state.md section 2 (R24, R178): Decode latches the operands as the register
file holds them after this tick's Writeback, which is the register file of the next state; with nothing in IF/ID, or
while it stalls, ID/EX receives a bubble (R178, R182). -/
def Obligations.DecodeReadsAfterWriteback : Prop :=
  (∀ s : State, s.ifid = none ∨ decodeStalled s = true → ∃ t, step s = .next t ∧ t.idex = none)
  ∧ ∀ (s : State) (d : IfId), s.ifid = some d → decodeStalled s = false → ∃ t e, step s = .next t
    ∧ t.idex = some e ∧ e.pc = d.pc ∧ e.instr = snapshot d.raw ∧ e.ctrl = controlSignals (snapshot d.raw)
    ∧ e.imm = (snapshot d.raw).imm
    ∧ (∀ r, (snapshot d.raw).rs1 = some r → e.rs1Value = t.readReg r)
    ∧ (∀ r, (snapshot d.raw).rs2 = some r → e.rs2Value = t.readReg r)

/-- R105: an INVALID word has all control signals false, is neither consumer nor producer, passes every stage as a
valid entry without a stall of its own, and changes no register, no memory and no retired count. -/
def Obligations.InvalidFlowsThroughAsANoOp : Prop :=
  ∀ (w : Word) (r : Rejection), decode w = .error r →
    controlSignals (snapshot w) = Ctrl.off ∧ sources (snapshot w) = []
    ∧ (∀ (c : Ctrl) (q : Reg), produces (snapshot w) c q = false)
    ∧ ∀ s : State, ∃ t, step s = .next t
      ∧ (∀ d, s.ifid = some d → d.raw = w →
          ∃ e, t.idex = some e ∧ e.instr = snapshot w ∧ e.ctrl = Ctrl.off)
      ∧ (∀ e, s.idex = some e → e.instr = snapshot w → e.ctrl = Ctrl.off →
          ∃ m, t.exmem = some m ∧ m.instr = snapshot w ∧ m.ctrl = Ctrl.off)
      ∧ (∀ m, s.exmem = some m → m.instr = snapshot w → m.ctrl = Ctrl.off →
          SameMemory s t ∧ ∃ v, t.memwb = some v ∧ v.instr = snapshot w ∧ v.ctrl = Ctrl.off)
      ∧ (∀ v, s.memwb = some v → v.instr = snapshot w → v.ctrl = Ctrl.off →
          SameRegisters s t ∧ t.retired = s.retired)

/-- 42_pipeline_stages.md section 7, R187 (c): nothing downstream of Decode stalls or is flushed: the instruction in
ID/EX is in EX/MEM after one tick, in MEM/WB after two, and retires in the third, whatever else is in flight. -/
def Obligations.ThreeTicksFromDecodeToRetirement : Prop :=
  ∀ (s : State) (e : IdEx), s.idex = some e →
    (∃ m, (ticks 1 s).exmem = some m ∧ m.pc = e.pc ∧ m.instr = e.instr ∧ m.ctrl = e.ctrl)
    ∧ (∃ w, (ticks 2 s).memwb = some w ∧ w.pc = e.pc ∧ w.instr = e.instr ∧ w.ctrl = e.ctrl)
    ∧ (ticks 3 s).retired = (ticks 2 s).retired + (if e.instr.instr = none then 0 else 1)

/-- 70_reset_and_hazards.md section 5, R363: a run of decode-stall cycles lasts at most three cycles, at most two with
forwarding, from any state. -/
def Obligations.DecodeStallsAreBounded : Prop :=
  ∀ s : State,
    (decodeStalled s = true → decodeStalled (ticks 1 s) = true → decodeStalled (ticks 2 s) = true →
      decodeStalled (ticks 3 s) = false)
    ∧ (s.cfg.forwarding = true → decodeStalled s = true → decodeStalled (ticks 1 s) = true →
      decodeStalled (ticks 2 s) = false)

/-- 70_reset_and_hazards.md section 5, R363: an instruction is fetch-stalled at most four cycles in a row, from any
state; a cycle with a redirect is no fetch stall (R184). -/
def Obligations.FetchStallsAreBounded : Prop :=
  ∀ s : State,
    (∀ k < 4, fetchStalled (ticks k s) = true ∧ decodeRedirect (ticks k s) = none) →
      fetchStalled (ticks 4 s) = false

/-- 70_reset_and_hazards.md section 5, R363: "The pipeline never deadlocks". From any state a fetched word stays in
IF/ID in one of the next five cycles. -/
def Obligations.FetchSucceedsWithinFiveCycles : Prop :=
  ∀ s : State, ∃ k < 5, fetchKept (ticks k s) = true

/-- R154: in every state that meets the invariant, under either policy, the operands of the instruction in Execute, and
those with which Decode resolves a branch or JALR, are the register values with all older instructions completed and no
later one started. -/
def Obligations.OperandsAreThoseOfOlderInstructions : Prop :=
  ∀ s : State, Consistent s → OperandsCorrect s

/-! ## The step and the instructions -/

/-- A step runs the decoded instruction, the simplest case: the word placed where the next tick fetches, with nothing
else in flight, is in the pipeline after one step, and completing the pipeline gives exactly its meaning. -/
def Obligations.StepRunsThePlacedInstruction : Prop :=
  ∀ (s s' : State) (w : Word) (i : Instr), decode w = .ok i →
    exec i (s.withFetchWord 32 w.toNat) = .next s' →
    ∃ t, step (s.withFetchWord 32 w.toNat) = .next t
      ∧ t.ifid = some { pc := s.pc, raw := w } ∧ t.pc = s.pc + 4#32
      ∧ complete t = { s' with cycle := s'.cycle + 1 }

/-- A step runs the decoded instruction, in every reachable state: let the instructions in flight finish; a step that
keeps its fetch has the effect of the meaning of the instruction at `pc` on that state, and any other step (a stall,
or a flushed fetch) has none. This is the pipeline's correctness, one step of R189. -/
def Obligations.StepRunsTheNextInstruction : Prop :=
  ∀ s : State, Consistent s → ∃ t, step s = .next t
    ∧ (fetchKept s = true → (complete s).pc = s.pc)
    ∧ (∀ i s', fetchKept s = true → decode (ifetch s.cfg.imem s.pc) = .ok i → exec i (complete s) = .next s' →
        complete t = { s' with cycle := s.cycle + 1 })
    ∧ (∀ r, fetchKept s = true → decode (ifetch s.cfg.imem s.pc) = .error r →
        complete t = { complete s with pc := s.pc + 4#32, cycle := s.cycle + 1 })
    ∧ (fetchKept s = false → complete t = { complete s with cycle := s.cycle + 1 })

/-- R187 (a), (d), R152: the invariant holds at reset, under any parameters within R8's constraints. -/
def Obligations.ConsistentAfterReset : Prop :=
  ∀ cfg : RunConfig, cfg.accepted = true → Consistent (State.resetWith cfg)

/-- R187 (a), (d), R152, and the canonical form of memory: every step keeps the invariant. -/
def Obligations.StepKeepsConsistent : Prop :=
  ∀ s t : State, Consistent s → step s = .next t → Consistent t

/-- 42_pipeline_stages.md section 8, R189: after any number of ticks from reset, under either policy, the registers and
the retired count are those of some number of reference steps, and the data memory is too, but that a store in MEM/WB
has already been performed. -/
def Obligations.PipelineCommitsTheReferenceResults : Prop :=
  ∀ (cfg : RunConfig) (k : Nat), cfg.accepted = true →
    let s := ticks k (State.resetWith cfg)
    ∃ m, let a := seqSteps m (State.resetWith cfg)
      SameRegisters a s ∧ s.retired = a.retired
      ∧ (s.memwb = none → SameMemory a s)
      ∧ (s.memwb ≠ none → SameMemory (seqSteps (m + 1) (State.resetWith cfg)) s)

/-- 70_reset_and_hazards.md section 3, R350: "must produce identical final register-file and memory contents; only
total elapsed cycles may differ". A run with forwarding and a run without, that have retired the same number of
instructions, hold the same registers, and the same memory if no store is between its access and its retirement. -/
def Obligations.ForwardingDoesNotChangeResults : Prop :=
  ∀ (cfg : RunConfig) (k₁ k₂ : Nat), cfg.accepted = true →
    let s₁ := ticks k₁ (State.resetWith { cfg with forwarding := true })
    let s₂ := ticks k₂ (State.resetWith { cfg with forwarding := false })
    s₁.retired = s₂.retired →
      SameRegisters s₁ s₂
      ∧ ((∀ w ∈ s₁.memwb, w.ctrl.memoryWrite = false) → (∀ w ∈ s₂.memwb, w.ctrl.memoryWrite = false) →
          SameMemory s₁ s₂)

/-! ## Reset and the block's interface -/

/-- 10_state.md section 8, R41: what reset leaves, for any parameters. The values other than the counters' are the
spec's decisions D9 to D12 (log 5). -/
def Obligations.ResetLeavesTheListedValues : Prop :=
  ∀ cfg : RunConfig, let s := State.resetWith cfg
    (∀ r, s.readReg r = 0#32) ∧ s.x[0] = 0#32 ∧ s.pc = 0#32 ∧ s.dmem = cfg.dmemInit
    ∧ s.ifid = none ∧ s.idex = none ∧ s.exmem = none ∧ s.memwb = none
    ∧ s.cycle = 0 ∧ s.retired = 0 ∧ s.cfg = cfg

/-- 70_reset_and_hazards.md section 1, R342 (decision D4, log 14), and 93_implementation_defined.md rows I5, I7 (log 16):
reset asserted at an edge replaces the whole state; the host's start refuses what R8 forbids and only that. -/
def Obligations.ResetEdgeAndBoot : Prop :=
  (∀ s : State, clockEdge true s = State.resetWith s.cfg ∧ step s = .next (clockEdge false s))
  ∧ ∀ cfg : RunConfig,
    (cfg.accepted = true → boot cfg = .next (State.resetWith cfg))
    ∧ (2 ^ 31 < cfg.dmemSize → boot cfg = .refused .dataMemoryTooLarge)
    ∧ (cfg.dmemSize ≤ 2 ^ 31 → 2 ^ 30 < cfg.imem.length → boot cfg = .refused .imageTooLong)
    ∧ (cfg.dmemSize ≤ 2 ^ 31 → cfg.imem.length ≤ 2 ^ 30 →
        cfg.dmemInit.wf = false ∨ cfg.dmemInit.within cfg.dmemSize = false →
        boot cfg = .refused .dataMemoryInitMalformed)

/-- 10_state.md section 9, R42 (decision D4, log 17): the data-memory request is all the tick does to the memory, its
answer is what a load extends, and the fetched word is `imem_data`. -/
def Obligations.BlockOutputsDriveTheTick : Prop :=
  ∀ s : State, ∃ t, step s = .next t
    ∧ t.dmem = (if (dmemRequest s).writeEnable
        then memWrite s.cfg.dmemSize s.dmem (dmemRequest s).addr (dmemRequest s).width (dmemRequest s).wdata
        else s.dmem)
    ∧ (∀ m, s.exmem = some m → (dmemRequest s).readEnable = true →
        ∃ w, t.memwb = some w ∧ w.memData = loadExtend m.instr (dmemRdata s))
    ∧ (fetchKept s = true → t.ifid = some { pc := s.pc, raw := imemData s })
    ∧ (imemAddr s).toNat = s.pc.toNat / 4
    ∧ retiredCount s = s.retired ∧ cycleCount s = s.cycle

/-- 10_state.md section 4, R30 (decision D21, log 18): the transient flags of an ALU result, in integers. -/
def Obligations.AluFlagsOfAResult : Prop :=
  ∀ r : Word, ((aluFlags r).zero = true ↔ r.toNat = 0) ∧ ((aluFlags r).negative = true ↔ r.toInt < 0)
end

