-- ==== Sys2Proof/Laws/Decode.lean ====
section
/-! SUPPORT. The encoder's fields read back (R84 to R94), the word rebuilt from its fields, and what the decoder can
answer, group by group (R96 to R103). -/

namespace Sys2Proof

/-- A register field is the register whose number its five bits are. -/
theorem regField_of_bits (w : Word) (lo : Nat) (r : Reg) (h : w.extractLsb' lo 5 = regBits r) :
    regField w lo = r := by
  apply Fin.ext
  simp only [regField, h, regBits, BitVec.toNat_ofNat]
  omega

/-- The five bits of a register field. -/
@[simp] theorem regBits_regField (w : Word) (lo : Nat) : regBits (regField w lo) = w.extractLsb' lo 5 := by
  apply BitVec.eq_of_toNat_eq
  have := (w.extractLsb' lo 5).isLt
  simp only [regBits, regField, BitVec.toNat_ofNat]
  omega

/-! ## Each field of an encoded word -/

@[simp] theorem opcodeField_encodeR (funct7 : BitVec 7) (funct3 : BitVec 3) (opc : BitVec 7) (rd rs1 rs2 : Reg) :
    opcodeField (encodeR funct7 funct3 opc rd rs1 rs2) = opc := by
  apply BitVec.eq_of_getLsbD_eq
  intro k hk
  simp only [opcodeField, encodeR, BitVec.getLsbD_append, BitVec.getLsbD_extractLsb']
  grind

@[simp] theorem funct3Field_encodeR (funct7 : BitVec 7) (funct3 : BitVec 3) (opc : BitVec 7) (rd rs1 rs2 : Reg) :
    funct3Field (encodeR funct7 funct3 opc rd rs1 rs2) = funct3 := by
  apply BitVec.eq_of_getLsbD_eq
  intro k hk
  simp only [funct3Field, encodeR, BitVec.getLsbD_append, BitVec.getLsbD_extractLsb']
  grind

@[simp] theorem funct7Field_encodeR (funct7 : BitVec 7) (funct3 : BitVec 3) (opc : BitVec 7) (rd rs1 rs2 : Reg) :
    funct7Field (encodeR funct7 funct3 opc rd rs1 rs2) = funct7 := by
  apply BitVec.eq_of_getLsbD_eq
  intro k hk
  simp only [funct7Field, encodeR, BitVec.getLsbD_append, BitVec.getLsbD_extractLsb']
  grind

@[simp] theorem rdField_encodeR (funct7 : BitVec 7) (funct3 : BitVec 3) (opc : BitVec 7) (rd rs1 rs2 : Reg) :
    rdField (encodeR funct7 funct3 opc rd rs1 rs2) = rd := by
  apply regField_of_bits
  apply BitVec.eq_of_getLsbD_eq
  intro k hk
  simp only [encodeR, BitVec.getLsbD_append, BitVec.getLsbD_extractLsb']
  grind

@[simp] theorem rs1Field_encodeR (funct7 : BitVec 7) (funct3 : BitVec 3) (opc : BitVec 7) (rd rs1 rs2 : Reg) :
    rs1Field (encodeR funct7 funct3 opc rd rs1 rs2) = rs1 := by
  apply regField_of_bits
  apply BitVec.eq_of_getLsbD_eq
  intro k hk
  simp only [encodeR, BitVec.getLsbD_append, BitVec.getLsbD_extractLsb']
  grind

@[simp] theorem rs2Field_encodeR (funct7 : BitVec 7) (funct3 : BitVec 3) (opc : BitVec 7) (rd rs1 rs2 : Reg) :
    rs2Field (encodeR funct7 funct3 opc rd rs1 rs2) = rs2 := by
  apply regField_of_bits
  apply BitVec.eq_of_getLsbD_eq
  intro k hk
  simp only [encodeR, BitVec.getLsbD_append, BitVec.getLsbD_extractLsb']
  grind

@[simp] theorem opcodeField_encodeI (funct3 : BitVec 3) (opc : BitVec 7) (rd rs1 : Reg) (imm : Word) :
    opcodeField (encodeI funct3 opc rd rs1 imm) = opc := by
  apply BitVec.eq_of_getLsbD_eq
  intro k hk
  simp only [opcodeField, encodeI, BitVec.getLsbD_append, BitVec.getLsbD_extractLsb']
  grind

@[simp] theorem funct3Field_encodeI (funct3 : BitVec 3) (opc : BitVec 7) (rd rs1 : Reg) (imm : Word) :
    funct3Field (encodeI funct3 opc rd rs1 imm) = funct3 := by
  apply BitVec.eq_of_getLsbD_eq
  intro k hk
  simp only [funct3Field, encodeI, BitVec.getLsbD_append, BitVec.getLsbD_extractLsb']
  grind

@[simp] theorem funct7Field_encodeI (funct3 : BitVec 3) (opc : BitVec 7) (rd rs1 : Reg) (imm : Word) :
    funct7Field (encodeI funct3 opc rd rs1 imm) = imm.extractLsb' 5 7 := by
  apply BitVec.eq_of_getLsbD_eq
  intro k hk
  simp only [funct7Field, encodeI, BitVec.getLsbD_append, BitVec.getLsbD_extractLsb']
  grind

@[simp] theorem rdField_encodeI (funct3 : BitVec 3) (opc : BitVec 7) (rd rs1 : Reg) (imm : Word) :
    rdField (encodeI funct3 opc rd rs1 imm) = rd := by
  apply regField_of_bits
  apply BitVec.eq_of_getLsbD_eq
  intro k hk
  simp only [encodeI, BitVec.getLsbD_append, BitVec.getLsbD_extractLsb']
  grind

@[simp] theorem rs1Field_encodeI (funct3 : BitVec 3) (opc : BitVec 7) (rd rs1 : Reg) (imm : Word) :
    rs1Field (encodeI funct3 opc rd rs1 imm) = rs1 := by
  apply regField_of_bits
  apply BitVec.eq_of_getLsbD_eq
  intro k hk
  simp only [encodeI, BitVec.getLsbD_append, BitVec.getLsbD_extractLsb']
  grind

@[simp] theorem opcodeField_encodeS (funct3 : BitVec 3) (rs1 rs2 : Reg) (imm : Word) :
    opcodeField (encodeS funct3 rs1 rs2 imm) = 0x23#7 := by
  apply BitVec.eq_of_getLsbD_eq
  intro k hk
  simp only [opcodeField, encodeS, BitVec.getLsbD_append, BitVec.getLsbD_extractLsb']
  grind

@[simp] theorem funct3Field_encodeS (funct3 : BitVec 3) (rs1 rs2 : Reg) (imm : Word) :
    funct3Field (encodeS funct3 rs1 rs2 imm) = funct3 := by
  apply BitVec.eq_of_getLsbD_eq
  intro k hk
  simp only [funct3Field, encodeS, BitVec.getLsbD_append, BitVec.getLsbD_extractLsb']
  grind

@[simp] theorem rs1Field_encodeS (funct3 : BitVec 3) (rs1 rs2 : Reg) (imm : Word) :
    rs1Field (encodeS funct3 rs1 rs2 imm) = rs1 := by
  apply regField_of_bits
  apply BitVec.eq_of_getLsbD_eq
  intro k hk
  simp only [encodeS, BitVec.getLsbD_append, BitVec.getLsbD_extractLsb']
  grind

@[simp] theorem rs2Field_encodeS (funct3 : BitVec 3) (rs1 rs2 : Reg) (imm : Word) :
    rs2Field (encodeS funct3 rs1 rs2 imm) = rs2 := by
  apply regField_of_bits
  apply BitVec.eq_of_getLsbD_eq
  intro k hk
  simp only [encodeS, BitVec.getLsbD_append, BitVec.getLsbD_extractLsb']
  grind

@[simp] theorem opcodeField_encodeB (funct3 : BitVec 3) (rs1 rs2 : Reg) (imm : Word) :
    opcodeField (encodeB funct3 rs1 rs2 imm) = 0x63#7 := by
  apply BitVec.eq_of_getLsbD_eq
  intro k hk
  simp only [opcodeField, encodeB, BitVec.getLsbD_append, BitVec.getLsbD_extractLsb']
  grind

@[simp] theorem funct3Field_encodeB (funct3 : BitVec 3) (rs1 rs2 : Reg) (imm : Word) :
    funct3Field (encodeB funct3 rs1 rs2 imm) = funct3 := by
  apply BitVec.eq_of_getLsbD_eq
  intro k hk
  simp only [funct3Field, encodeB, BitVec.getLsbD_append, BitVec.getLsbD_extractLsb']
  grind

@[simp] theorem rs1Field_encodeB (funct3 : BitVec 3) (rs1 rs2 : Reg) (imm : Word) :
    rs1Field (encodeB funct3 rs1 rs2 imm) = rs1 := by
  apply regField_of_bits
  apply BitVec.eq_of_getLsbD_eq
  intro k hk
  simp only [encodeB, BitVec.getLsbD_append, BitVec.getLsbD_extractLsb']
  grind

@[simp] theorem rs2Field_encodeB (funct3 : BitVec 3) (rs1 rs2 : Reg) (imm : Word) :
    rs2Field (encodeB funct3 rs1 rs2 imm) = rs2 := by
  apply regField_of_bits
  apply BitVec.eq_of_getLsbD_eq
  intro k hk
  simp only [encodeB, BitVec.getLsbD_append, BitVec.getLsbD_extractLsb']
  grind

@[simp] theorem opcodeField_encodeU (opc : BitVec 7) (rd : Reg) (imm : Word) :
    opcodeField (encodeU opc rd imm) = opc := by
  apply BitVec.eq_of_getLsbD_eq
  intro k hk
  simp only [opcodeField, encodeU, BitVec.getLsbD_append, BitVec.getLsbD_extractLsb']
  grind

@[simp] theorem rdField_encodeU (opc : BitVec 7) (rd : Reg) (imm : Word) :
    rdField (encodeU opc rd imm) = rd := by
  apply regField_of_bits
  apply BitVec.eq_of_getLsbD_eq
  intro k hk
  simp only [encodeU, BitVec.getLsbD_append, BitVec.getLsbD_extractLsb']
  grind

@[simp] theorem opcodeField_encodeJ (rd : Reg) (imm : Word) :
    opcodeField (encodeJ rd imm) = 0x6F#7 := by
  apply BitVec.eq_of_getLsbD_eq
  intro k hk
  simp only [opcodeField, encodeJ, BitVec.getLsbD_append, BitVec.getLsbD_extractLsb']
  grind

@[simp] theorem rdField_encodeJ (rd : Reg) (imm : Word) :
    rdField (encodeJ rd imm) = rd := by
  apply regField_of_bits
  apply BitVec.eq_of_getLsbD_eq
  intro k hk
  simp only [encodeJ, BitVec.getLsbD_append, BitVec.getLsbD_extractLsb']
  grind

/-! ## Each immediate of an encoded word, when the format can hold it (`Instr.wf`) -/

theorem immI_encodeI (funct3 : BitVec 3) (opc : BitVec 7) (rd rs1 : Reg) (imm : Word) (h : fitsImm12 imm = true) :
    immI (encodeI funct3 opc rd rs1 imm) = imm := by
  have hs := beq_iff_eq.mp h
  have hg : ((encodeI funct3 opc rd rs1 imm).extractLsb' 20 12)
      = imm.extractLsb' 0 12 := by
    apply BitVec.eq_of_getLsbD_eq
    intro k hk
    simp only [encodeI, BitVec.getLsbD_append, BitVec.getLsbD_extractLsb']
    grind
  rw [immI, hg, ← hs]

theorem immS_encodeS (funct3 : BitVec 3) (rs1 rs2 : Reg) (imm : Word) (h : fitsImm12 imm = true) :
    immS (encodeS funct3 rs1 rs2 imm) = imm := by
  have hs := beq_iff_eq.mp h
  have hg : ((encodeS funct3 rs1 rs2 imm).extractLsb' 25 7 ++ (encodeS funct3 rs1 rs2 imm).extractLsb' 7 5)
      = imm.extractLsb' 0 12 := by
    apply BitVec.eq_of_getLsbD_eq
    intro k hk
    simp only [encodeS, BitVec.getLsbD_append, BitVec.getLsbD_extractLsb']
    grind
  rw [immS, hg, ← hs]

theorem immB_encodeB (funct3 : BitVec 3) (rs1 rs2 : Reg) (imm : Word) (h : fitsImm13 imm = true) :
    immB (encodeB funct3 rs1 rs2 imm) = imm := by
  simp only [fitsImm13, Bool.and_eq_true, beq_iff_eq] at h
  obtain ⟨hs, h0⟩ := h
  have hz : imm.getLsbD 0 = false := by
    have := congrArg (fun b : BitVec 1 => b.getLsbD 0) h0
    simpa using this
  have hg : ((encodeB funct3 rs1 rs2 imm).extractLsb' 31 1 ++ (encodeB funct3 rs1 rs2 imm).extractLsb' 7 1
        ++ (encodeB funct3 rs1 rs2 imm).extractLsb' 25 6 ++ (encodeB funct3 rs1 rs2 imm).extractLsb' 8 4 ++ 0#1)
      = imm.extractLsb' 0 13 := by
    apply BitVec.eq_of_getLsbD_eq
    intro k hk
    simp only [encodeB, BitVec.getLsbD_append, BitVec.getLsbD_extractLsb']
    grind
  rw [immB, hg, ← hs]

theorem immJ_encodeJ (rd : Reg) (imm : Word) (h : fitsImm21 imm = true) :
    immJ (encodeJ rd imm) = imm := by
  simp only [fitsImm21, Bool.and_eq_true, beq_iff_eq] at h
  obtain ⟨hs, h0⟩ := h
  have hz : imm.getLsbD 0 = false := by
    have := congrArg (fun b : BitVec 1 => b.getLsbD 0) h0
    simpa using this
  have hg : ((encodeJ rd imm).extractLsb' 31 1 ++ (encodeJ rd imm).extractLsb' 12 8
        ++ (encodeJ rd imm).extractLsb' 20 1 ++ (encodeJ rd imm).extractLsb' 21 10 ++ 0#1)
      = imm.extractLsb' 0 21 := by
    apply BitVec.eq_of_getLsbD_eq
    intro k hk
    simp only [encodeJ, BitVec.getLsbD_append, BitVec.getLsbD_extractLsb']
    grind
  rw [immJ, hg, ← hs]

theorem immU_encodeU (opc : BitVec 7) (rd : Reg) (imm : Word) (h : fitsUpper imm = true) :
    immU (encodeU opc rd imm) = imm := by
  have hz : ∀ k, k < 12 → imm.getLsbD k = false := by
    intro k hk
    have := congrArg (fun b : BitVec 12 => b.getLsbD k) (beq_iff_eq.mp h)
    simpa [BitVec.getLsbD_extractLsb', hk] using this
  apply BitVec.eq_of_getLsbD_eq
  intro k hk
  simp only [immU, encodeU, BitVec.getLsbD_append, BitVec.getLsbD_extractLsb']
  grind

/-- The shift immediates are I immediates, and their top bits are the selector (R95, R98). -/
theorem fitsImm12_of_fitsShift {imm : Word} (h : fitsShift imm = true) :
    fitsImm12 imm = true ∧ imm.extractLsb' 5 7 = 0#7 := by
  have hz : ∀ k, 5 ≤ k → k < 32 → imm.getLsbD k = false := by
    intro k hk hk'
    have := congrArg (fun b : BitVec 27 => b.getLsbD (k - 5)) (beq_iff_eq.mp h)
    have hlt : k - 5 < 27 := by omega
    have hadd : 5 + (k - 5) = k := by omega
    simpa [BitVec.getLsbD_extractLsb', hlt, hadd] using this
  constructor
  · refine beq_iff_eq.mpr (BitVec.eq_of_getLsbD_eq fun k hk => ?_)
    simp only [BitVec.getLsbD_signExtend, BitVec.getLsbD_extractLsb', BitVec.msb_eq_getLsbD_last]
    grind
  · apply BitVec.eq_of_getLsbD_eq
    intro k hk
    simp only [BitVec.getLsbD_extractLsb']
    grind

theorem fitsImm12_of_fitsShiftArith {imm : Word} (h : fitsShiftArith imm = true) :
    fitsImm12 imm = true ∧ imm.extractLsb' 5 7 = 0b0100000#7 := by
  have hb : ∀ k, 5 ≤ k → k < 32 → imm.getLsbD k = decide (k = 10) := by
    intro k hk hk'
    have := congrArg (fun b : BitVec 27 => b.getLsbD (k - 5)) (beq_iff_eq.mp h)
    have hlt : k - 5 < 27 := by omega
    have hadd : 5 + (k - 5) = k := by omega
    simp only [BitVec.getLsbD_extractLsb', hlt, hadd, decide_true, Bool.true_and] at this
    rw [this]
    have : ∀ j : Fin 27, (0b0100000#27).getLsbD j.val = decide (j.val = 5) := by decide
    rw [this ⟨k - 5, hlt⟩]
    simp only [decide_eq_decide]
    omega
  constructor
  · refine beq_iff_eq.mpr (BitVec.eq_of_getLsbD_eq fun k hk => ?_)
    simp only [BitVec.getLsbD_signExtend, BitVec.getLsbD_extractLsb', BitVec.msb_eq_getLsbD_last]
    grind
  · apply BitVec.eq_of_getLsbD_eq
    intro k hk
    have : ∀ j : Fin 7, (0b0100000#7).getLsbD j.val = decide (j.val = 5) := by decide
    rw [this ⟨k, hk⟩]
    simp only [BitVec.getLsbD_extractLsb', hk, decide_true, Bool.true_and]
    rw [hb _ (by omega) (by omega)]
    simp only [decide_eq_decide]
    omega

/-! ## A word rebuilt from its fields -/

theorem encodeR_fields (w : Word) :
    encodeR (funct7Field w) (funct3Field w) (opcodeField w) (rdField w) (rs1Field w) (rs2Field w) = w := by
  apply BitVec.eq_of_getLsbD_eq
  intro k hk
  simp only [encodeR, rdField, rs1Field, rs2Field, regBits_regField, funct7Field, funct3Field, opcodeField,
    BitVec.getLsbD_append, BitVec.getLsbD_extractLsb']
  grind

theorem encodeI_fields (w : Word) :
    encodeI (funct3Field w) (opcodeField w) (rdField w) (rs1Field w) (immI w) = w := by
  apply BitVec.eq_of_getLsbD_eq
  intro k hk
  simp only [encodeI, immI, rdField, rs1Field, regBits_regField, funct3Field, opcodeField,
    BitVec.getLsbD_append, BitVec.getLsbD_extractLsb', BitVec.getLsbD_signExtend]
  grind

theorem encodeS_fields (w : Word) (h : opcodeField w = 0x23#7) :
    encodeS (funct3Field w) (rs1Field w) (rs2Field w) (immS w) = w := by
  apply BitVec.eq_of_getLsbD_eq
  intro k hk
  simp only [encodeS, ← h, immS, rs1Field, rs2Field, regBits_regField, funct3Field, opcodeField,
    BitVec.getLsbD_append, BitVec.getLsbD_extractLsb', BitVec.getLsbD_signExtend]
  grind

theorem encodeB_fields (w : Word) (h : opcodeField w = 0x63#7) :
    encodeB (funct3Field w) (rs1Field w) (rs2Field w) (immB w) = w := by
  apply BitVec.eq_of_getLsbD_eq
  intro k hk
  simp only [encodeB, ← h, immB, rs1Field, rs2Field, regBits_regField, funct3Field, opcodeField,
    BitVec.getLsbD_append, BitVec.getLsbD_extractLsb', BitVec.getLsbD_signExtend]
  grind

theorem encodeU_fields (w : Word) : encodeU (opcodeField w) (rdField w) (immU w) = w := by
  apply BitVec.eq_of_getLsbD_eq
  intro k hk
  simp only [encodeU, immU, rdField, regBits_regField, opcodeField,
    BitVec.getLsbD_append, BitVec.getLsbD_extractLsb']
  grind

theorem encodeJ_fields (w : Word) (h : opcodeField w = 0x6F#7) : encodeJ (rdField w) (immJ w) = w := by
  apply BitVec.eq_of_getLsbD_eq
  intro k hk
  simp only [encodeJ, ← h, immJ, rdField, regBits_regField, opcodeField,
    BitVec.getLsbD_append, BitVec.getLsbD_extractLsb', BitVec.getLsbD_signExtend]
  grind

/-! ## The immediates of a word fit their formats (R90 to R95) -/

theorem fitsImm12_immI (w : Word) : fitsImm12 (immI w) = true := by
  simp only [fitsImm12, beq_iff_eq]
  apply BitVec.eq_of_getLsbD_eq
  intro k hk
  simp only [immI, BitVec.getLsbD_signExtend, BitVec.getLsbD_extractLsb', BitVec.msb_eq_getLsbD_last]
  grind

theorem fitsImm12_immS (w : Word) : fitsImm12 (immS w) = true := by
  simp only [fitsImm12, beq_iff_eq]
  apply BitVec.eq_of_getLsbD_eq
  intro k hk
  simp only [immS, BitVec.getLsbD_signExtend, BitVec.getLsbD_extractLsb', BitVec.msb_eq_getLsbD_last]
  grind

theorem fitsImm13_immB (w : Word) : fitsImm13 (immB w) = true := by
  simp only [fitsImm13, beq_iff_eq, Bool.and_eq_true]
  constructor <;> apply BitVec.eq_of_getLsbD_eq <;> intro k hk <;>
    simp only [immB, BitVec.getLsbD_signExtend, BitVec.getLsbD_extractLsb', BitVec.msb_eq_getLsbD_last,
      BitVec.getLsbD_append] <;> grind

theorem fitsImm21_immJ (w : Word) : fitsImm21 (immJ w) = true := by
  simp only [fitsImm21, beq_iff_eq, Bool.and_eq_true]
  constructor <;> apply BitVec.eq_of_getLsbD_eq <;> intro k hk <;>
    simp only [immJ, BitVec.getLsbD_signExtend, BitVec.getLsbD_extractLsb', BitVec.msb_eq_getLsbD_last,
      BitVec.getLsbD_append] <;> grind

theorem fitsUpper_immU (w : Word) : fitsUpper (immU w) = true := by
  simp only [fitsUpper, beq_iff_eq]
  apply BitVec.eq_of_getLsbD_eq
  intro k hk
  simp only [immU, BitVec.getLsbD_extractLsb', BitVec.getLsbD_append]
  grind

/-- The upper 27 bits of the immediate of a shift are its selector (R95, R98). -/
theorem immI_selector (w : Word) (h : (funct7Field w).msb = false) :
    (immI w).extractLsb' 5 27 = (funct7Field w).zeroExtend 27 := by
  apply BitVec.eq_of_getLsbD_eq
  intro k hk
  simp only [funct7Field, BitVec.msb_eq_getLsbD_last, BitVec.getLsbD_extractLsb'] at h
  simp only [funct7Field, immI, BitVec.getLsbD_signExtend, BitVec.getLsbD_extractLsb', BitVec.msb_eq_getLsbD_last,
    BitVec.truncate_eq_setWidth, BitVec.getLsbD_setWidth]
  grind

/-! ## A row's mask and match, field by field (R96 to R103) -/

/-- Mask 0xFE00707F compares funct7, funct3 and the opcode. -/
theorem matches_funct7_funct3_opcode (w : Word) (f7 : BitVec 7) (f3 : BitVec 3) (o : BitVec 7) :
    w &&& 0xFE00707F#32 = f7 ++ 0#10 ++ f3 ++ 0#5 ++ o ↔ funct7Field w = f7 ∧ funct3Field w = f3 ∧ opcodeField w = o := by
  have hm : ∀ k < 32, (0xFE00707F#32).getLsbD k = 
      (decide (k < 7) || (decide (12 ≤ k) && decide (k < 15)) || decide (25 ≤ k)) := by decide
  constructor
  · intro h
    have hk := fun k => congrArg (fun x => x.getLsbD k) h
    simp only [BitVec.getLsbD_and, BitVec.getLsbD_append] at hk
    refine ⟨?_,?_,?_⟩ <;> apply BitVec.eq_of_getLsbD_eq <;> intro k h' <;>
      simp only [funct7Field, funct3Field, opcodeField, BitVec.getLsbD_extractLsb']
    · have := hk (25 + k); rw [hm _ (by omega)] at this; grind
    · have := hk (12 + k); rw [hm _ (by omega)] at this; grind
    · have := hk (k); rw [hm _ (by omega)] at this; grind
  · rintro ⟨rfl,rfl,rfl⟩
    apply BitVec.eq_of_getLsbD_eq; intro k h'
    simp only [funct7Field, funct3Field, opcodeField, BitVec.getLsbD_extractLsb', BitVec.getLsbD_and,
      BitVec.getLsbD_append]
    rw [hm _ (by omega)]; grind

/-- Mask 0x0000707F compares funct3 and the opcode. -/
theorem matches_funct3_opcode (w : Word) (f3 : BitVec 3) (o : BitVec 7) :
    w &&& 0x0000707F#32 = 0#17 ++ f3 ++ 0#5 ++ o ↔ funct3Field w = f3 ∧ opcodeField w = o := by
  have hm : ∀ k < 32, (0x0000707F#32).getLsbD k = (decide (k < 7) || (decide (12 ≤ k) && decide (k < 15))) := by decide
  constructor
  · intro h
    have hk := fun k => congrArg (fun x => x.getLsbD k) h
    simp only [BitVec.getLsbD_and, BitVec.getLsbD_append] at hk
    refine ⟨?_,?_⟩ <;> apply BitVec.eq_of_getLsbD_eq <;> intro k h' <;> simp only [funct3Field, opcodeField, BitVec.getLsbD_extractLsb']
    · have := hk (12 + k); rw [hm _ (by omega)] at this; grind
    · have := hk (k); rw [hm _ (by omega)] at this; grind
  · rintro ⟨rfl,rfl⟩
    apply BitVec.eq_of_getLsbD_eq; intro k h'
    simp only [funct3Field, opcodeField, BitVec.getLsbD_extractLsb', BitVec.getLsbD_and, BitVec.getLsbD_append]
    rw [hm _ (by omega)]; grind

/-- Mask 0x0000007F compares the opcode. -/
theorem matches_opcode (w : Word) (o : BitVec 7) :
    w &&& 0x0000007F#32 = 0#25 ++ o ↔ opcodeField w = o := by
  have hm : ∀ k < 32, (0x0000007F#32).getLsbD k = (decide (k < 7)) := by decide
  constructor
  · intro h
    have hk := fun k => congrArg (fun x => x.getLsbD k) h
    simp only [BitVec.getLsbD_and, BitVec.getLsbD_append] at hk
    apply BitVec.eq_of_getLsbD_eq; intro k h'; simp only [opcodeField, BitVec.getLsbD_extractLsb']
    · have := hk (k); rw [hm _ (by omega)] at this; grind
  · rintro rfl
    apply BitVec.eq_of_getLsbD_eq; intro k h'
    simp only [opcodeField, BitVec.getLsbD_extractLsb', BitVec.getLsbD_and, BitVec.getLsbD_append]
    rw [hm _ (by omega)]; grind

/-! ## What the decoder can answer -/

/-- The group that answers for a decoded word (R96). -/
theorem decode_ok_cases {w : Word} {i : Instr} (h : decode w = .ok i) :
    (opcodeField w = 0x33#7 ∧ decodeRegReg w = .ok i) ∨ (opcodeField w = 0x13#7 ∧ decodeRegImm w = .ok i)
    ∨ (opcodeField w = 0x03#7 ∧ decodeLoad w = .ok i) ∨ (opcodeField w = 0x67#7 ∧ decodeJalr w = .ok i)
    ∨ (opcodeField w = 0x23#7 ∧ decodeStore w = .ok i) ∨ (opcodeField w = 0x63#7 ∧ decodeBranch w = .ok i)
    ∨ (opcodeField w = 0x37#7 ∧ i = .lui (rdField w) (immU w))
    ∨ (opcodeField w = 0x17#7 ∧ i = .auipc (rdField w) (immU w))
    ∨ (opcodeField w = 0x6F#7 ∧ i = .jal (rdField w) (immJ w)) := by
  unfold decode at h
  split at h <;> simp_all

/-! ## The value of each immediate as a sum of its bit groups (R90 to R94) -/

theorem immI_toInt (w : Word) : (immI w).toInt = (w.toNat / 2 ^ 20 : Nat) - 2 ^ 12 * (w.toNat / 2 ^ 31 : Nat) := by
  have := w.isLt
  rw [immI, BitVec.toInt_signExtend_of_le (by decide), BitVec.toInt_eq_toNat_cond]
  simp only [BitVec.extractLsb'_toNat, Nat.shiftRight_eq_div_pow]
  split <;> omega

/-- Concatenation as a sum. -/
theorem toNat_append_eq_add {n m : Nat} (a : BitVec n) (b : BitVec m) : (a ++ b).toNat = a.toNat * 2 ^ m + b.toNat := by
  rw [BitVec.toNat_append, ← Nat.shiftLeft_add_eq_or_of_lt b.isLt, Nat.shiftLeft_eq]

theorem immS_toInt (w : Word) : (immS w).toInt = (2 ^ 5 * (w.toNat / 2 ^ 25) + w.toNat / 2 ^ 7 % 2 ^ 5 : Nat) - 2 ^ 12 * (w.toNat / 2 ^ 31 : Nat) := by
  have := w.isLt
  rw [immS, BitVec.toInt_signExtend_of_le (by decide), BitVec.toInt_eq_toNat_cond]
  simp only [BitVec.extractLsb'_toNat, Nat.shiftRight_eq_div_pow, toNat_append_eq_add]
  split <;> omega

theorem immB_toInt (w : Word) : (immB w).toInt =
        (2 * (w.toNat / 2 ^ 8 % 2 ^ 4) + 2 ^ 5 * (w.toNat / 2 ^ 25 % 2 ^ 6) + 2 ^ 11 * (w.toNat / 2 ^ 7 % 2) : Nat)
          - 2 ^ 12 * (w.toNat / 2 ^ 31 : Nat) := by
  have := w.isLt
  rw [immB, BitVec.toInt_signExtend_of_le (by decide), BitVec.toInt_eq_toNat_cond]
  simp only [BitVec.extractLsb'_toNat, Nat.shiftRight_eq_div_pow, toNat_append_eq_add, BitVec.toNat_ofNat]
  split <;> omega

theorem immJ_toInt (w : Word) : (immJ w).toInt =
        (2 * (w.toNat / 2 ^ 21 % 2 ^ 10) + 2 ^ 11 * (w.toNat / 2 ^ 20 % 2) + 2 ^ 12 * (w.toNat / 2 ^ 12 % 2 ^ 8) : Nat)
          - 2 ^ 20 * (w.toNat / 2 ^ 31 : Nat) := by
  have := w.isLt
  rw [immJ, BitVec.toInt_signExtend_of_le (by decide), BitVec.toInt_eq_toNat_cond]
  simp only [BitVec.extractLsb'_toNat, Nat.shiftRight_eq_div_pow, toNat_append_eq_add, BitVec.toNat_ofNat]
  split <;> omega

theorem immU_toNat (w : Word) : (immU w).toNat = w.toNat / 2 ^ 12 * 2 ^ 12 := by
  have := w.isLt
  simp only [immU, BitVec.extractLsb'_toNat, Nat.shiftRight_eq_div_pow, toNat_append_eq_add, BitVec.toNat_ofNat]
  omega

/-- The one value of funct3 that R98's other rows leave. -/
theorem eq_five_of_ne (f : BitVec 3) (h0 : f ≠ 0b000#3) (h2 : f ≠ 0b010#3) (h3 : f ≠ 0b011#3) (h4 : f ≠ 0b100#3)
    (h6 : f ≠ 0b110#3) (h7 : f ≠ 0b111#3) (h1 : f ≠ 0b001#3) : f = 5#3 := by
  have := f.isLt
  simp only [ne_eq, ← BitVec.toNat_inj, BitVec.toNat_ofNat] at *
  omega

/-- What the group of R97 answers, and the selectors it answers for. -/
theorem decodeRegReg_ok_cases {w : Word} {i : Instr} (h : decodeRegReg w = .ok i) :
    (i = .add (rdField w) (rs1Field w) (rs2Field w) ∧ funct7Field w = 0#7 ∧ funct3Field w = 0#3)
    ∨ (i = .sub (rdField w) (rs1Field w) (rs2Field w) ∧ funct7Field w = 0x20#7 ∧ funct3Field w = 0#3)
    ∨ (i = .sll (rdField w) (rs1Field w) (rs2Field w) ∧ funct7Field w = 0#7 ∧ funct3Field w = 1#3)
    ∨ (i = .slt (rdField w) (rs1Field w) (rs2Field w) ∧ funct7Field w = 0#7 ∧ funct3Field w = 2#3)
    ∨ (i = .sltu (rdField w) (rs1Field w) (rs2Field w) ∧ funct7Field w = 0#7 ∧ funct3Field w = 3#3)
    ∨ (i = .xor (rdField w) (rs1Field w) (rs2Field w) ∧ funct7Field w = 0#7 ∧ funct3Field w = 4#3)
    ∨ (i = .srl (rdField w) (rs1Field w) (rs2Field w) ∧ funct7Field w = 0#7 ∧ funct3Field w = 5#3)
    ∨ (i = .sra (rdField w) (rs1Field w) (rs2Field w) ∧ funct7Field w = 0x20#7 ∧ funct3Field w = 5#3)
    ∨ (i = .or (rdField w) (rs1Field w) (rs2Field w) ∧ funct7Field w = 0#7 ∧ funct3Field w = 6#3)
    ∨ (i = .and (rdField w) (rs1Field w) (rs2Field w) ∧ funct7Field w = 0#7 ∧ funct3Field w = 7#3) := by
  unfold decodeRegReg at h
  split at h <;> simp_all


/-- What the group of R98 answers, and the selectors it answers for. -/
theorem decodeRegImm_ok_cases {w : Word} {i : Instr} (h : decodeRegImm w = .ok i) :
    (i = .addi (rdField w) (rs1Field w) (immI w) ∧ funct3Field w = 0#3)
    ∨ (i = .slti (rdField w) (rs1Field w) (immI w) ∧ funct3Field w = 2#3)
    ∨ (i = .sltiu (rdField w) (rs1Field w) (immI w) ∧ funct3Field w = 3#3)
    ∨ (i = .xori (rdField w) (rs1Field w) (immI w) ∧ funct3Field w = 4#3)
    ∨ (i = .ori (rdField w) (rs1Field w) (immI w) ∧ funct3Field w = 6#3)
    ∨ (i = .andi (rdField w) (rs1Field w) (immI w) ∧ funct3Field w = 7#3)
    ∨ (i = .slli (rdField w) (rs1Field w) (immI w) ∧ funct7Field w = 0#7 ∧ funct3Field w = 1#3)
    ∨ (i = .srli (rdField w) (rs1Field w) (immI w) ∧ funct7Field w = 0#7 ∧ funct3Field w = 5#3)
    ∨ (i = .srai (rdField w) (rs1Field w) (immI w) ∧ funct7Field w = 0x20#7 ∧ funct3Field w = 5#3) := by
  unfold decodeRegImm at h
  split at h
  iterate 6 simp_all
  · split at h <;> simp_all
  · have := eq_five_of_ne (funct3Field w) ‹_› ‹_› ‹_› ‹_› ‹_› ‹_› ‹_›
    split at h <;> simp_all

/-- What the group of R99 answers, and the selectors it answers for. -/
theorem decodeLoad_ok_cases {w : Word} {i : Instr} (h : decodeLoad w = .ok i) :
    (i = .lb (rdField w) (rs1Field w) (immI w) ∧ funct3Field w = 0#3)
    ∨ (i = .lh (rdField w) (rs1Field w) (immI w) ∧ funct3Field w = 1#3)
    ∨ (i = .lw (rdField w) (rs1Field w) (immI w) ∧ funct3Field w = 2#3)
    ∨ (i = .lbu (rdField w) (rs1Field w) (immI w) ∧ funct3Field w = 4#3)
    ∨ (i = .lhu (rdField w) (rs1Field w) (immI w) ∧ funct3Field w = 5#3) := by
  unfold decodeLoad at h
  split at h <;> simp_all

/-- What the group of R101 answers, and the selectors it answers for. -/
theorem decodeStore_ok_cases {w : Word} {i : Instr} (h : decodeStore w = .ok i) :
    (i = .sb (rs1Field w) (rs2Field w) (immS w) ∧ funct3Field w = 0#3)
    ∨ (i = .sh (rs1Field w) (rs2Field w) (immS w) ∧ funct3Field w = 1#3)
    ∨ (i = .sw (rs1Field w) (rs2Field w) (immS w) ∧ funct3Field w = 2#3) := by
  unfold decodeStore at h
  split at h <;> simp_all

/-- What the group of R102 answers, and the selectors it answers for. -/
theorem decodeBranch_ok_cases {w : Word} {i : Instr} (h : decodeBranch w = .ok i) :
    (i = .beq (rs1Field w) (rs2Field w) (immB w) ∧ funct3Field w = 0#3)
    ∨ (i = .bne (rs1Field w) (rs2Field w) (immB w) ∧ funct3Field w = 1#3)
    ∨ (i = .blt (rs1Field w) (rs2Field w) (immB w) ∧ funct3Field w = 4#3)
    ∨ (i = .bge (rs1Field w) (rs2Field w) (immB w) ∧ funct3Field w = 5#3)
    ∨ (i = .bltu (rs1Field w) (rs2Field w) (immB w) ∧ funct3Field w = 6#3)
    ∨ (i = .bgeu (rs1Field w) (rs2Field w) (immB w) ∧ funct3Field w = 7#3) := by
  unfold decodeBranch at h
  split at h <;> simp_all

/-- What the group of R100 answers, and the selectors it answers for. -/
theorem decodeJalr_ok {w : Word} {i : Instr} (h : decodeJalr w = .ok i) :
    (i = .jalr (rdField w) (rs1Field w) (immI w) ∧ funct3Field w = 0#3) := by
  unfold decodeJalr at h
  split at h <;> simp_all

theorem decodeInstr_of_ok {w : Word} {i : Instr} (h : decode w = .ok i) : decodeInstr w = some i := by
  simp [decodeInstr, h, Except.toOption]

theorem decodeInstr_of_error {w : Word} {r : Rejection} (h : decode w = .error r) : decodeInstr w = none := by
  simp [decodeInstr, h, Except.toOption]

theorem decode_of_decodeInstr {w : Word} {i : Instr} (h : decodeInstr w = some i) : decode w = .ok i := by
  unfold decodeInstr at h
  cases hd : decode w <;> simp_all [Except.toOption]

end Sys2Proof
end

