-- ==== Sys2Proof/Laws/State.lean ====
section
/-! SUPPORT. One lemma per field per update of `State`, true by rfl, so that no later proof unfolds a record update. -/

namespace Sys2Proof.Machine

@[simp] theorem State.retireTo_x (s : State) (npc : Word) : (s.retireTo npc).x = s.x := rfl
@[simp] theorem State.retireTo_pc (s : State) (npc : Word) : (s.retireTo npc).pc = npc := rfl
@[simp] theorem State.retireTo_dmem (s : State) (npc : Word) : (s.retireTo npc).dmem = s.dmem := rfl
@[simp] theorem State.retireTo_ifid (s : State) (npc : Word) : (s.retireTo npc).ifid = s.ifid := rfl
@[simp] theorem State.retireTo_idex (s : State) (npc : Word) : (s.retireTo npc).idex = s.idex := rfl
@[simp] theorem State.retireTo_exmem (s : State) (npc : Word) : (s.retireTo npc).exmem = s.exmem := rfl
@[simp] theorem State.retireTo_memwb (s : State) (npc : Word) : (s.retireTo npc).memwb = s.memwb := rfl
@[simp] theorem State.retireTo_cycle (s : State) (npc : Word) : (s.retireTo npc).cycle = s.cycle := rfl
@[simp] theorem State.retireTo_retired (s : State) (npc : Word) : (s.retireTo npc).retired = s.retired + 1 := rfl
@[simp] theorem State.retireTo_cfg (s : State) (npc : Word) : (s.retireTo npc).cfg = s.cfg := rfl

@[simp] theorem State.writeAndRetire_x (s : State) (rd : Reg) (v npc : Word) : (s.writeAndRetire rd v npc).x = regWrite s.x rd v := rfl
@[simp] theorem State.writeAndRetire_pc (s : State) (rd : Reg) (v npc : Word) : (s.writeAndRetire rd v npc).pc = npc := rfl
@[simp] theorem State.writeAndRetire_dmem (s : State) (rd : Reg) (v npc : Word) : (s.writeAndRetire rd v npc).dmem = s.dmem := rfl
@[simp] theorem State.writeAndRetire_ifid (s : State) (rd : Reg) (v npc : Word) : (s.writeAndRetire rd v npc).ifid = s.ifid := rfl
@[simp] theorem State.writeAndRetire_idex (s : State) (rd : Reg) (v npc : Word) : (s.writeAndRetire rd v npc).idex = s.idex := rfl
@[simp] theorem State.writeAndRetire_exmem (s : State) (rd : Reg) (v npc : Word) : (s.writeAndRetire rd v npc).exmem = s.exmem := rfl
@[simp] theorem State.writeAndRetire_memwb (s : State) (rd : Reg) (v npc : Word) : (s.writeAndRetire rd v npc).memwb = s.memwb := rfl
@[simp] theorem State.writeAndRetire_cycle (s : State) (rd : Reg) (v npc : Word) : (s.writeAndRetire rd v npc).cycle = s.cycle := rfl
@[simp] theorem State.writeAndRetire_retired (s : State) (rd : Reg) (v npc : Word) : (s.writeAndRetire rd v npc).retired = s.retired + 1 := rfl
@[simp] theorem State.writeAndRetire_cfg (s : State) (rd : Reg) (v npc : Word) : (s.writeAndRetire rd v npc).cfg = s.cfg := rfl

@[simp] theorem State.result_x (s : State) (rd : Reg) (v : Word) : (s.result rd v).x = regWrite s.x rd v := rfl
@[simp] theorem State.result_pc (s : State) (rd : Reg) (v : Word) : (s.result rd v).pc = s.pc + 4#32 := rfl
@[simp] theorem State.result_dmem (s : State) (rd : Reg) (v : Word) : (s.result rd v).dmem = s.dmem := rfl
@[simp] theorem State.result_ifid (s : State) (rd : Reg) (v : Word) : (s.result rd v).ifid = s.ifid := rfl
@[simp] theorem State.result_idex (s : State) (rd : Reg) (v : Word) : (s.result rd v).idex = s.idex := rfl
@[simp] theorem State.result_exmem (s : State) (rd : Reg) (v : Word) : (s.result rd v).exmem = s.exmem := rfl
@[simp] theorem State.result_memwb (s : State) (rd : Reg) (v : Word) : (s.result rd v).memwb = s.memwb := rfl
@[simp] theorem State.result_cycle (s : State) (rd : Reg) (v : Word) : (s.result rd v).cycle = s.cycle := rfl
@[simp] theorem State.result_retired (s : State) (rd : Reg) (v : Word) : (s.result rd v).retired = s.retired + 1 := rfl
@[simp] theorem State.result_cfg (s : State) (rd : Reg) (v : Word) : (s.result rd v).cfg = s.cfg := rfl

@[simp] theorem State.store_x (s : State) (a : Word) (n : Width) (v : Word) : (s.store a n v).x = s.x := rfl
@[simp] theorem State.store_pc (s : State) (a : Word) (n : Width) (v : Word) : (s.store a n v).pc = s.pc + 4#32 := rfl
@[simp] theorem State.store_dmem (s : State) (a : Word) (n : Width) (v : Word) : (s.store a n v).dmem = memWrite s.cfg.dmemSize s.dmem a n v := rfl
@[simp] theorem State.store_ifid (s : State) (a : Word) (n : Width) (v : Word) : (s.store a n v).ifid = s.ifid := rfl
@[simp] theorem State.store_idex (s : State) (a : Word) (n : Width) (v : Word) : (s.store a n v).idex = s.idex := rfl
@[simp] theorem State.store_exmem (s : State) (a : Word) (n : Width) (v : Word) : (s.store a n v).exmem = s.exmem := rfl
@[simp] theorem State.store_memwb (s : State) (a : Word) (n : Width) (v : Word) : (s.store a n v).memwb = s.memwb := rfl
@[simp] theorem State.store_cycle (s : State) (a : Word) (n : Width) (v : Word) : (s.store a n v).cycle = s.cycle := rfl
@[simp] theorem State.store_retired (s : State) (a : Word) (n : Width) (v : Word) : (s.store a n v).retired = s.retired + 1 := rfl
@[simp] theorem State.store_cfg (s : State) (a : Word) (n : Width) (v : Word) : (s.store a n v).cfg = s.cfg := rfl

@[simp] theorem State.branchIf_x (s : State) (c : Bool) (imm : Word) : (s.branchIf c imm).x = s.x := rfl
@[simp] theorem State.branchIf_pc (s : State) (c : Bool) (imm : Word) :
    (s.branchIf c imm).pc = (if c then s.pc + imm else s.pc + 4#32) := rfl
@[simp] theorem State.branchIf_dmem (s : State) (c : Bool) (imm : Word) : (s.branchIf c imm).dmem = s.dmem := rfl
@[simp] theorem State.branchIf_ifid (s : State) (c : Bool) (imm : Word) : (s.branchIf c imm).ifid = s.ifid := rfl
@[simp] theorem State.branchIf_idex (s : State) (c : Bool) (imm : Word) : (s.branchIf c imm).idex = s.idex := rfl
@[simp] theorem State.branchIf_exmem (s : State) (c : Bool) (imm : Word) : (s.branchIf c imm).exmem = s.exmem := rfl
@[simp] theorem State.branchIf_memwb (s : State) (c : Bool) (imm : Word) : (s.branchIf c imm).memwb = s.memwb := rfl
@[simp] theorem State.branchIf_cycle (s : State) (c : Bool) (imm : Word) : (s.branchIf c imm).cycle = s.cycle := rfl
@[simp] theorem State.branchIf_retired (s : State) (c : Bool) (imm : Word) : (s.branchIf c imm).retired = s.retired + 1 := rfl
@[simp] theorem State.branchIf_cfg (s : State) (c : Bool) (imm : Word) : (s.branchIf c imm).cfg = s.cfg := rfl

@[simp] theorem State.skipInvalid_x (s : State) : s.skipInvalid.x = s.x := rfl
@[simp] theorem State.skipInvalid_pc (s : State) : s.skipInvalid.pc = s.pc + 4#32 := rfl
@[simp] theorem State.skipInvalid_dmem (s : State) : s.skipInvalid.dmem = s.dmem := rfl
@[simp] theorem State.skipInvalid_ifid (s : State) : s.skipInvalid.ifid = s.ifid := rfl
@[simp] theorem State.skipInvalid_idex (s : State) : s.skipInvalid.idex = s.idex := rfl
@[simp] theorem State.skipInvalid_exmem (s : State) : s.skipInvalid.exmem = s.exmem := rfl
@[simp] theorem State.skipInvalid_memwb (s : State) : s.skipInvalid.memwb = s.memwb := rfl
@[simp] theorem State.skipInvalid_cycle (s : State) : s.skipInvalid.cycle = s.cycle := rfl
@[simp] theorem State.skipInvalid_retired (s : State) : s.skipInvalid.retired = s.retired := rfl
@[simp] theorem State.skipInvalid_cfg (s : State) : s.skipInvalid.cfg = s.cfg := rfl

@[simp] theorem tick_x (s : State) : (tick s).x = writebackRegs s := rfl
@[simp] theorem tick_pc (s : State) : (tick s).pc = nextPc s := rfl
@[simp] theorem tick_dmem (s : State) : (tick s).dmem = memoryData s := rfl
@[simp] theorem tick_ifid (s : State) : (tick s).ifid = nextIfid s := rfl
@[simp] theorem tick_idex (s : State) : (tick s).idex = decodeStage s := rfl
@[simp] theorem tick_exmem (s : State) : (tick s).exmem = executeStage s := rfl
@[simp] theorem tick_memwb (s : State) : (tick s).memwb = memoryStage s := rfl
@[simp] theorem tick_cycle (s : State) : (tick s).cycle = s.cycle + 1 := rfl
@[simp] theorem tick_retired (s : State) : (tick s).retired = writebackRetired s := rfl
@[simp] theorem tick_cfg (s : State) : (tick s).cfg = s.cfg := rfl

@[simp] theorem State.withFetchWord_x (s : State) (nbits w : Nat) : (s.withFetchWord nbits w).x = s.x := rfl
@[simp] theorem State.withFetchWord_pc (s : State) (nbits w : Nat) : (s.withFetchWord nbits w).pc = s.pc := rfl
@[simp] theorem State.withFetchWord_dmem (s : State) (nbits w : Nat) : (s.withFetchWord nbits w).dmem = s.dmem := rfl
@[simp] theorem State.withFetchWord_ifid (s : State) (nbits w : Nat) : (s.withFetchWord nbits w).ifid = none := rfl
@[simp] theorem State.withFetchWord_idex (s : State) (nbits w : Nat) : (s.withFetchWord nbits w).idex = none := rfl
@[simp] theorem State.withFetchWord_exmem (s : State) (nbits w : Nat) : (s.withFetchWord nbits w).exmem = none := rfl
@[simp] theorem State.withFetchWord_memwb (s : State) (nbits w : Nat) : (s.withFetchWord nbits w).memwb = none := rfl
@[simp] theorem State.withFetchWord_cycle (s : State) (nbits w : Nat) : (s.withFetchWord nbits w).cycle = s.cycle := rfl
@[simp] theorem State.withFetchWord_retired (s : State) (nbits w : Nat) : (s.withFetchWord nbits w).retired = s.retired := rfl

@[simp] theorem State.resetWith_x (cfg : RunConfig) : (State.resetWith cfg).x = Vector.replicate 32 0#32 := rfl
@[simp] theorem State.resetWith_pc (cfg : RunConfig) : (State.resetWith cfg).pc = 0#32 := rfl
@[simp] theorem State.resetWith_dmem (cfg : RunConfig) : (State.resetWith cfg).dmem = cfg.dmemInit := rfl
@[simp] theorem State.resetWith_ifid (cfg : RunConfig) : (State.resetWith cfg).ifid = none := rfl
@[simp] theorem State.resetWith_idex (cfg : RunConfig) : (State.resetWith cfg).idex = none := rfl
@[simp] theorem State.resetWith_exmem (cfg : RunConfig) : (State.resetWith cfg).exmem = none := rfl
@[simp] theorem State.resetWith_memwb (cfg : RunConfig) : (State.resetWith cfg).memwb = none := rfl
@[simp] theorem State.resetWith_cycle (cfg : RunConfig) : (State.resetWith cfg).cycle = 0 := rfl
@[simp] theorem State.resetWith_retired (cfg : RunConfig) : (State.resetWith cfg).retired = 0 := rfl
@[simp] theorem State.resetWith_cfg (cfg : RunConfig) : (State.resetWith cfg).cfg = cfg := rfl

@[simp] theorem completeMemwb_x (s : State) : (completeMemwb s).x = writebackRegs s := rfl
@[simp] theorem completeMemwb_pc (s : State) : (completeMemwb s).pc = s.pc := rfl
@[simp] theorem completeMemwb_dmem (s : State) : (completeMemwb s).dmem = s.dmem := rfl
@[simp] theorem completeMemwb_ifid (s : State) : (completeMemwb s).ifid = s.ifid := rfl
@[simp] theorem completeMemwb_idex (s : State) : (completeMemwb s).idex = s.idex := rfl
@[simp] theorem completeMemwb_exmem (s : State) : (completeMemwb s).exmem = s.exmem := rfl
@[simp] theorem completeMemwb_memwb (s : State) : (completeMemwb s).memwb = none := rfl
@[simp] theorem completeMemwb_cycle (s : State) : (completeMemwb s).cycle = s.cycle := rfl
@[simp] theorem completeMemwb_retired (s : State) : (completeMemwb s).retired = writebackRetired s := rfl
@[simp] theorem completeMemwb_cfg (s : State) : (completeMemwb s).cfg = s.cfg := rfl

@[simp] theorem State.withFetchWord_forwarding (s : State) (nbits w : Nat) :
    (s.withFetchWord nbits w).cfg.forwarding = s.cfg.forwarding := rfl
@[simp] theorem State.withFetchWord_dmemSize (s : State) (nbits w : Nat) :
    (s.withFetchWord nbits w).cfg.dmemSize = s.cfg.dmemSize := rfl
@[simp] theorem State.withFetchWord_imem (s : State) (nbits w : Nat) :
    (s.withFetchWord nbits w).cfg.imem
      = placeWord s.cfg.imem (s.pc.extractLsb' 2 30).toNat (BitVec.ofNat 32 (w % 2 ^ nbits)) := rfl

@[simp] theorem ticks_zero (s : State) : ticks 0 s = s := rfl
@[simp] theorem ticks_succ (n : Nat) (s : State) : ticks (n + 1) s = ticks n (tick s) := rfl
@[simp] theorem seqSteps_zero (s : State) : seqSteps 0 s = s := rfl
@[simp] theorem seqSteps_succ (n : Nat) (s : State) : seqSteps (n + 1) s = seqSteps n (seqStep s) := rfl

end Sys2Proof.Machine
end

