-- ==== Sys2Proof/Laws/Memory.lean ====
section
/-! SUPPORT. What the memory operations can do: every write keeps the canonical form and the bounds of the data memory,
and a byte read after a write is the byte written or the one before (R51 to R54). -/

namespace Sys2Proof.Machine

/-! ## The canonical form -/

theorem wf_nil : Memory.wf [] = true := rfl

/-- The form, entry by entry. -/
theorem wf_cons (k : Nat) (b : Byte) (m : Memory) :
    Memory.wf ((k, b) :: m) = true ↔ (∀ c ∈ m, k < c.1) ∧ b ≠ 0#8 ∧ Memory.wf m = true := by
  simp only [Memory.wf, List.pairwise_cons, List.all_cons, Bool.and_eq_true, decide_eq_true_eq, bne_iff_ne]
  tauto

/-- Where a write's entries come from. -/
theorem mem_writeByte {m : Memory} {a : Nat} {v : Byte} {c : Host.Cell} (h : c ∈ writeByte m a v) :
    c = (a, v) ∨ c ∈ m := by
  induction m with
  | nil => unfold writeByte at h; split at h <;> simp_all
  | cons e m ih =>
    obtain ⟨k, b⟩ := e
    unfold writeByte at h
    split at h
    · split at h <;> simp_all
    · split at h
      · split at h <;> simp_all
        tauto
      · rcases List.mem_cons.mp h with h | h
        · simp [h]
        · rcases ih h with h | h <;> simp [h]

/-- Every write of a byte keeps the canonical form. -/
theorem wf_writeByte {m : Memory} (h : m.wf = true) (a : Nat) (v : Byte) : Memory.wf (writeByte m a v) = true := by
  induction m with
  | nil =>
    unfold writeByte
    split
    · rfl
    · simp_all [wf_cons, wf_nil]
  | cons e m ih =>
    obtain ⟨k, b⟩ := e
    obtain ⟨hk, hb, hm⟩ := (wf_cons k b m).mp h
    unfold writeByte
    split
    · rename_i hak
      split
      · exact h
      · refine (wf_cons _ _ _).mpr ⟨?_, ‹_›, h⟩
        intro c hc
        rcases List.mem_cons.mp hc with rfl | hc
        · exact hak
        · exact lt_trans hak (hk c hc)
    · split
      · rename_i hak
        split
        · exact hm
        · exact (wf_cons _ _ _).mpr ⟨hak ▸ hk, ‹_›, hm⟩
      · refine (wf_cons _ _ _).mpr ⟨?_, hb, ih hm⟩
        intro c hc
        rcases mem_writeByte hc with rfl | hc
        · simp only; omega
        · exact hk c hc

theorem wf_writeBytes {m : Memory} (h : m.wf = true) (a n : Nat) (v : Word) :
    Memory.wf (writeBytes m a n v) = true := by
  induction n generalizing m a v with
  | zero => exact h
  | succ n ih => exact ih (wf_writeByte h _ _) _ _

/-- Every store keeps the canonical form. -/
theorem wf_memWrite {m : Memory} (h : m.wf = true) (size : Nat) (addr : Word) (n : Width) (v : Word) :
    Memory.wf (memWrite size m addr n v) = true := by
  unfold memWrite
  split
  · exact wf_writeBytes h _ _ _
  · exact h

/-! ## Staying inside the data memory -/

theorem within_iff (m : Memory) (size : Nat) : m.within size = true ↔ ∀ c ∈ m, c.1 < size := by
  simp [Memory.within]

theorem within_writeBytes {m : Memory} {size : Nat} (h : m.within size = true) (a n : Nat) (v : Word)
    (hb : a + n ≤ size) : Memory.within (writeBytes m a n v) size = true := by
  induction n generalizing m a v with
  | zero => exact h
  | succ n ih =>
    refine ih ?_ _ _ (by omega)
    rw [within_iff] at h ⊢
    intro c hc
    rcases mem_writeByte hc with rfl | hc
    · simp only; omega
    · exact h c hc

/-- Every store stays inside the data memory. -/
theorem within_memWrite {m : Memory} {size : Nat} (h : m.within size = true) (addr : Word) (n : Width) (v : Word) :
    Memory.within (memWrite size m addr n v) size = true := by
  unfold memWrite
  split
  · rename_i hb
    exact within_writeBytes h _ _ _ (by simpa [inBounds] using hb)
  · exact h

/-! ## Read after write -/

/-- A byte that is not listed reads as 0. -/
theorem readByte_of_not_listed {m : Memory} {a : Nat} (h : ∀ c ∈ m, c.1 ≠ a) : readByte m a = 0#8 := by
  induction m with
  | nil => rfl
  | cons e m ih =>
    obtain ⟨k, b⟩ := e
    have hk : k ≠ a := h (k, b) (by simp)
    simp only [readByte, hk, if_false]
    exact ih fun c hc => h c (by simp [hc])

/-- One byte read after one byte written. -/
theorem readByte_writeByte {m : Memory} (h : m.wf = true) (a a' : Nat) (v : Byte) :
    readByte (writeByte m a v) a' = if a' = a then v else readByte m a' := by
  induction m with
  | nil =>
    unfold writeByte
    split
    · simp_all [readByte]
    · by_cases ha : a' = a
      · simp [readByte, ha]
      · have : a ≠ a' := fun h => ha h.symm
        simp [readByte, ha, this]
  | cons e m ih =>
    obtain ⟨k, b⟩ := e
    obtain ⟨hk, hb, hm⟩ := (wf_cons k b m).mp h
    have hnot : ∀ x, x ≤ k → readByte m x = 0#8 := fun x hx =>
      readByte_of_not_listed fun c hc => by have := hk c hc; omega
    unfold writeByte
    split
    · rename_i hak
      split
      · by_cases ha : a' = a
        · subst ha
          have hka : k ≠ a' := by omega
          simp_all [readByte, hnot a' (by omega)]
        · simp [ha]
      · by_cases ha : a' = a
        · simp [readByte, ha]
        · have : a ≠ a' := fun h => ha h.symm
          simp [readByte, ha, this]
    · split
      · rename_i hak
        subst hak
        split
        · by_cases ha : a' = a
          · simp_all [hnot a (le_refl _)]
          · have : a ≠ a' := fun h => ha h.symm
            simp [readByte, ha, this]
        · by_cases ha : a' = a
          · simp [readByte, ha]
          · have : a ≠ a' := fun h => ha h.symm
            simp [readByte, ha, this]
      · rename_i hak
        by_cases hka : k = a'
        · have : a' ≠ a := by omega
          simp [readByte, hka, this]
        · simp only [readByte, hka, if_false]
          exact ih hm

/-- Writing a byte leaves every other one, whatever form the memory has. -/
theorem readByte_writeByte_of_ne (m : Memory) {a a' : Nat} (v : Byte) (h : a' ≠ a) :
    readByte (writeByte m a v) a' = readByte m a' := by
  induction m with
  | nil =>
    unfold writeByte
    split <;> simp [readByte, h.symm]
  | cons e m ih =>
    obtain ⟨k, b⟩ := e
    unfold writeByte
    split
    · split <;> simp [readByte, h.symm]
    · split
      · rename_i hak
        subst hak
        split <;> simp [readByte, h.symm]
      · simp only [readByte, ih]

/-- Writing bytes leaves every byte outside them. -/
theorem readByte_writeBytes_of_outside (m : Memory) (a n : Nat) (v : Word) {a' : Nat} (h : a' < a ∨ a + n ≤ a') :
    readByte (writeBytes m a n v) a' = readByte m a' := by
  induction n generalizing m a v with
  | zero => rfl
  | succ n ih =>
    rw [writeBytes, ih _ _ _ (by omega)]
    exact readByte_writeByte_of_ne _ _ (by omega)

/-- A store leaves every byte outside the bytes it names (R54). -/
theorem readByte_memWrite_of_outside (size : Nat) (m : Memory) (addr : Word) (n : Width) (v : Word) {a : Nat}
    (h : a < addr.toNat ∨ addr.toNat + n.bytes ≤ a) : readByte (memWrite size m addr n v) a = readByte m a := by
  unfold memWrite
  split
  · exact readByte_writeBytes_of_outside _ _ _ _ h
  · rfl

/-- One byte read after `n` bytes written. -/
theorem readByte_writeBytes {m : Memory} (h : m.wf = true) (a n a' : Nat) (v : Word) :
    readByte (writeBytes m a n v) a' =
      if a ≤ a' ∧ a' < a + n then v.extractLsb' (8 * (a' - a)) 8 else readByte m a' := by
  induction n generalizing m a v with
  | zero =>
    have : ¬ (a ≤ a' ∧ a' < a + 0) := by omega
    simp only [writeBytes, this, if_false]
  | succ n ih =>
    simp only [writeBytes, ih (wf_writeByte h _ _), readByte_writeByte h]
    by_cases h1 : a + 1 ≤ a' ∧ a' < a + 1 + n
    · have h2 : a ≤ a' ∧ a' < a + (n + 1) := by omega
      have h3 : 8 * (a' - (a + 1)) + 8 = 8 * (a' - a) := by omega
      simp only [h1, h2, and_self, if_true]
      apply BitVec.eq_of_getLsbD_eq
      intro i hi
      simp only [BitVec.getLsbD_extractLsb', BitVec.getLsbD_ushiftRight, hi, decide_true, Bool.true_and]
      congr 1
      omega
    · simp only [h1, if_false]
      by_cases h2 : a' = a
      · have h3 : a ≤ a' ∧ a' < a + (n + 1) := by omega
        simp [h2]
      · have h3 : ¬ (a ≤ a' ∧ a' < a + (n + 1)) := by omega
        simp only [h2, h3, if_false]

/-- One byte read after a store: all `n` bytes when in bounds, none otherwise (R54). -/
theorem readByte_memWrite {m : Memory} (h : m.wf = true) (size : Nat) (addr : Word) (n : Width) (v : Word) (a : Nat) :
    readByte (memWrite size m addr n v) a =
      if addr.toNat + n.bytes ≤ size ∧ addr.toNat ≤ a ∧ a < addr.toNat + n.bytes
      then v.extractLsb' (8 * (a - addr.toNat)) 8 else readByte m a := by
  unfold memWrite
  by_cases hb : addr.toNat + n.bytes ≤ size
  · simp only [inBounds, hb, decide_true, if_true, true_and]
    exact readByte_writeBytes h _ _ _ _
  · simp [inBounds, hb]

/-- The number that `n` bytes read stand for, one byte at a time (R51). -/
theorem readBytes_toNat_succ (m : Memory) (a n : Nat) (hn : n + 1 ≤ 4) (hlt : (readBytes m (a + 1) n).toNat < 2 ^ (8 * n)) :
    (readBytes m a (n + 1)).toNat = (readByte m a).toNat + 256 * (readBytes m (a + 1) n).toNat
      ∧ (readBytes m a (n + 1)).toNat < 2 ^ (8 * (n + 1)) := by
  have hb : (readByte m a).toNat < 2 ^ 8 := (readByte m a).isLt
  have hp : 2 ^ (8 * (n + 1)) = 256 * 2 ^ (8 * n) := by rw [Nat.mul_add, Nat.pow_add]; omega
  have hp4 : 2 ^ (8 * (n + 1)) ≤ 2 ^ 32 := Nat.pow_le_pow_right (by omega) (by omega)
  have key : (readBytes m a (n + 1)).toNat = (readByte m a).toNat + 256 * (readBytes m (a + 1) n).toNat := by
    simp only [readBytes, BitVec.toNat_or, BitVec.toNat_shiftLeft, BitVec.truncate_eq_setWidth,
      BitVec.toNat_setWidth]
    rw [Nat.mod_eq_of_lt (by omega), Nat.shiftLeft_eq, Nat.mod_eq_of_lt (by omega), Nat.or_comm,
      ← Nat.shiftLeft_eq, ← Nat.shiftLeft_add_eq_or_of_lt hb, Nat.shiftLeft_eq]
    omega
  exact ⟨key, by omega⟩

theorem readBytes_toNat_lt (m : Memory) (a n : Nat) (hn : n ≤ 4) : (readBytes m a n).toNat < 2 ^ (8 * n) := by
  induction n generalizing a with
  | zero => simp [readBytes]
  | succ n ih => exact (readBytes_toNat_succ m a n hn (ih (a + 1) (by omega))).2

/-- A byte below every listed address reads as 0. -/
theorem readByte_of_below {k : Nat} {b : Byte} {m : Memory} {a : Nat} (h : Memory.wf ((k, b) :: m) = true) (ha : a < k) :
    readByte ((k, b) :: m) a = 0#8 := by
  obtain ⟨h1, -, -⟩ := (wf_cons k b m).1 h
  apply readByte_of_not_listed
  rintro c (- | ⟨-, hc⟩)
  · exact fun e => absurd e (by simp only; omega)
  · have := h1 c hc
    omega

/-- Equal memories are equal data: two canonical memories that read alike are the same list. -/
theorem eq_of_readByte_eq {m m' : Memory} (h : m.wf = true) (h' : m'.wf = true)
    (hr : ∀ a, readByte m a = readByte m' a) : m = m' := by
  induction m generalizing m' with
  | nil =>
    rcases m' with _ | ⟨⟨k, b⟩, m'⟩
    · rfl
    · have := hr k
      simp only [readByte, if_true] at this
      exact absurd this.symm ((wf_cons k b m').1 h').2.1
  | cons c m ih =>
    obtain ⟨k, b⟩ := c
    obtain ⟨h1, hb, hm⟩ := (wf_cons k b m).1 h
    rcases m' with _ | ⟨⟨k', b'⟩, m'⟩
    · have := hr k
      simp only [readByte, if_true] at this
      exact absurd this hb
    · obtain ⟨h1', hb', hm'⟩ := (wf_cons k' b' m').1 h'
      have hk := hr k
      have hk' := hr k'
      rcases lt_trichotomy k k' with hlt | rfl | hlt
      · rw [readByte_of_below h' hlt] at hk
        simp only [readByte, if_true] at hk
        exact absurd hk hb
      · simp only [readByte, if_true] at hk
        subst hk
        rw [ih hm hm' fun a => ?_]
        by_cases ha : k = a
        · subst ha
          rw [readByte_of_not_listed fun c hc => (h1 c hc).ne', readByte_of_not_listed fun c hc => (h1' c hc).ne']
        · simpa only [readByte, ha, if_false] using hr a
      · rw [readByte_of_below h hlt] at hk'
        simp only [readByte, if_true] at hk'
        exact absurd hk'.symm hb'

/-- The number that `n` bytes read stand for, as a sum (R51). -/
theorem readBytes_toNat_eq_sum (m : Memory) (a n : Nat) (hn : n ≤ 4) :
    (readBytes m a n).toNat = ∑ k ∈ Finset.range n, (readByte m (a + k)).toNat * 256 ^ k := by
  induction n generalizing a with
  | zero => simp [readBytes]
  | succ n ih =>
    rw [(readBytes_toNat_succ m a n hn (readBytes_toNat_lt _ _ _ (by omega))).1, Finset.sum_range_succ', ih _ (by omega),
      Finset.mul_sum, add_comm]
    congr 1
    · apply Finset.sum_congr rfl
      intro k _
      rw [pow_succ, show a + 1 + k = a + (k + 1) by omega]
      ring
    · simp

theorem Width.bytes_le (n : Width) : n.bytes ≤ 4 := by cases n <;> decide

theorem memRead_toNat_lt (size : Nat) (m : Memory) (addr : Word) (n : Width) :
    (memRead size m addr n).toNat < 2 ^ (8 * n.bytes) := by
  unfold memRead
  split
  · exact readBytes_toNat_lt _ _ _ n.bytes_le
  · exact Nat.two_pow_pos _

end Sys2Proof.Machine
end

