-- ==== Sys2Proof/Laws/Operands.lean ====
section
/-! SUPPORT. The operand forms in integers: shifts (R177), extensions (R260), the JALR target (R288). -/

namespace Sys2Proof.Machine

/-- R177, "masked to 5 bits". -/
theorem shiftAmount_eq_mod (b : Word) : shiftAmount b = b.toNat % 32 := by simp [shiftAmount]

theorem ofInt_add_toInt (a b : Word) : BitVec.ofInt 32 (a.toInt + b.toInt) = a + b := by
  apply BitVec.eq_of_toInt_eq
  simp [BitVec.toInt_add]

theorem ofInt_sub_toInt (a b : Word) : BitVec.ofInt 32 (a.toInt - b.toInt) = a - b := by
  apply BitVec.eq_of_toInt_eq
  simp [BitVec.toInt_sub]

/-- An arithmetic shift divides, rounding down. -/
theorem sshiftRight_eq_ofInt_div (a : Word) (n : Nat) : a.sshiftRight n = BitVec.ofInt 32 (a.toInt / 2 ^ n) := by
  have h : a.toInt / 2 ^ n = (a.sshiftRight n).toInt := by
    rw [BitVec.toInt_sshiftRight, Int.shiftRight_eq_div_pow]
    norm_num
  rw [h, BitVec.ofInt_toInt]

theorem shiftLeft_eq_ofNat_mul (a : Word) (n : Nat) : a <<< n = BitVec.ofNat 32 (a.toNat * 2 ^ n) := by
  apply BitVec.eq_of_toNat_eq
  simp [Nat.shiftLeft_eq]

theorem ushiftRight_eq_ofNat_div (a : Word) (n : Nat) : a >>> n = BitVec.ofNat 32 (a.toNat / 2 ^ n) := by
  apply BitVec.eq_of_toNat_eq
  simp only [BitVec.toNat_ushiftRight, Nat.shiftRight_eq_div_pow, BitVec.toNat_ofNat]
  exact (Nat.mod_eq_of_lt (lt_of_le_of_lt (Nat.div_le_self _ _) a.isLt)).symm

/-- R260, LB. -/
theorem sext8_toInt (v : Word) (h : v.toNat < 2 ^ 8) :
    (sext8 v).toInt = if v.toNat < 2 ^ 7 then (v.toNat : Int) else v.toNat - 2 ^ 8 := by
  rw [sext8, BitVec.toInt_signExtend_of_le (by decide), BitVec.toInt_eq_toNat_cond]
  simp only [BitVec.extractLsb'_toNat, Nat.shiftRight_zero]
  rw [Nat.mod_eq_of_lt h]
  split <;> split <;> omega

/-- R260, LH. -/
theorem sext16_toInt (v : Word) (h : v.toNat < 2 ^ 16) :
    (sext16 v).toInt = if v.toNat < 2 ^ 15 then (v.toNat : Int) else v.toNat - 2 ^ 16 := by
  rw [sext16, BitVec.toInt_signExtend_of_le (by decide), BitVec.toInt_eq_toNat_cond]
  simp only [BitVec.extractLsb'_toNat, Nat.shiftRight_zero]
  rw [Nat.mod_eq_of_lt h]
  split <;> split <;> omega

/-- R260, LBU. -/
theorem zext8_toNat (v : Word) : (zext8 v).toNat = v.toNat % 2 ^ 8 := by
  simp only [zext8, BitVec.truncate_eq_setWidth, BitVec.toNat_setWidth, BitVec.extractLsb'_toNat, Nat.shiftRight_zero]
  omega

/-- R260, LHU. -/
theorem zext16_toNat (v : Word) : (zext16 v).toNat = v.toNat % 2 ^ 16 := by
  simp only [zext16, BitVec.truncate_eq_setWidth, BitVec.toNat_setWidth, BitVec.extractLsb'_toNat, Nat.shiftRight_zero]
  omega

/-- R288: bit 0 of the sum is cleared. -/
theorem jalrTarget_toNat (a imm : Word) : (jalrTarget a imm).toNat = (a + imm).toNat / 2 * 2 := by
  have h : ∀ x : Word, x &&& 0xFFFFFFFE#32 = (x >>> 1) <<< 1 := by
    intro x
    apply BitVec.eq_of_getLsbD_eq
    intro k hk
    have hm : ∀ j < 32, (0xFFFFFFFE#32).getLsbD j = decide (1 ≤ j) := by decide
    rw [BitVec.getLsbD_and, hm k hk]
    simp only [BitVec.getLsbD_shiftLeft, BitVec.getLsbD_ushiftRight]
    grind
  have hx := (a + imm).isLt
  rw [jalrTarget, h]
  simp only [BitVec.toNat_shiftLeft, BitVec.toNat_ushiftRight, Nat.shiftRight_eq_div_pow, Nat.shiftLeft_eq]
  omega

end Sys2Proof.Machine
end

