-- ==== Sys2Proof/Laws/PerInstr.lean ====
section
/-! SUPPORT. Facts about each instruction as syntax, one lemma per constructor of `Instr`. -/

namespace Sys2Proof.Laws

/-- The mask and the match of the instruction's row in spec/opcode_table.json. -/
def pattern : Instr → Word × Word
  | .add _ _ _ => (0xFE00707F#32, 0x00000033#32)
  | .sub _ _ _ => (0xFE00707F#32, 0x40000033#32)
  | .sll _ _ _ => (0xFE00707F#32, 0x00001033#32)
  | .slt _ _ _ => (0xFE00707F#32, 0x00002033#32)
  | .sltu _ _ _ => (0xFE00707F#32, 0x00003033#32)
  | .xor _ _ _ => (0xFE00707F#32, 0x00004033#32)
  | .srl _ _ _ => (0xFE00707F#32, 0x00005033#32)
  | .sra _ _ _ => (0xFE00707F#32, 0x40005033#32)
  | .or _ _ _ => (0xFE00707F#32, 0x00006033#32)
  | .and _ _ _ => (0xFE00707F#32, 0x00007033#32)
  | .addi _ _ _ => (0x0000707F#32, 0x00000013#32)
  | .slti _ _ _ => (0x0000707F#32, 0x00002013#32)
  | .sltiu _ _ _ => (0x0000707F#32, 0x00003013#32)
  | .xori _ _ _ => (0x0000707F#32, 0x00004013#32)
  | .ori _ _ _ => (0x0000707F#32, 0x00006013#32)
  | .andi _ _ _ => (0x0000707F#32, 0x00007013#32)
  | .slli _ _ _ => (0xFE00707F#32, 0x00001013#32)
  | .srli _ _ _ => (0xFE00707F#32, 0x00005013#32)
  | .srai _ _ _ => (0xFE00707F#32, 0x40005013#32)
  | .lui _ _ => (0x0000007F#32, 0x00000037#32)
  | .auipc _ _ => (0x0000007F#32, 0x00000017#32)
  | .lb _ _ _ => (0x0000707F#32, 0x00000003#32)
  | .lh _ _ _ => (0x0000707F#32, 0x00001003#32)
  | .lw _ _ _ => (0x0000707F#32, 0x00002003#32)
  | .lbu _ _ _ => (0x0000707F#32, 0x00004003#32)
  | .lhu _ _ _ => (0x0000707F#32, 0x00005003#32)
  | .sb _ _ _ => (0x0000707F#32, 0x00000023#32)
  | .sh _ _ _ => (0x0000707F#32, 0x00001023#32)
  | .sw _ _ _ => (0x0000707F#32, 0x00002023#32)
  | .beq _ _ _ => (0x0000707F#32, 0x00000063#32)
  | .bne _ _ _ => (0x0000707F#32, 0x00001063#32)
  | .blt _ _ _ => (0x0000707F#32, 0x00004063#32)
  | .bge _ _ _ => (0x0000707F#32, 0x00005063#32)
  | .bltu _ _ _ => (0x0000707F#32, 0x00006063#32)
  | .bgeu _ _ _ => (0x0000707F#32, 0x00007063#32)
  | .jalr _ _ _ => (0x0000707F#32, 0x00000067#32)
  | .jal _ _ => (0x0000007F#32, 0x0000006F#32)

/-- The encoding of a well-formed instruction carries the fixed bits of its row (R96 to R103, R108). -/
def EncodingPattern.Statement (i : Instr) : Prop := i.wf = true → encode i &&& (pattern i).1 = (pattern i).2

/-- The selector of an encoded shift. -/
theorem funct7_of_fitsShift {imm : Word} (h : fitsShift imm = true) : imm.extractLsb' 5 7 = 0#7 := by
  simp only [fitsShift, beq_iff_eq] at h
  have : imm.extractLsb' 5 7 = (imm.extractLsb' 5 27).extractLsb' 0 7 := by
    apply BitVec.eq_of_getLsbD_eq
    intro k hk
    simp only [BitVec.getLsbD_extractLsb']
    grind
  rw [this, h]
  rfl

theorem funct7_of_fitsShiftArith {imm : Word} (h : fitsShiftArith imm = true) : imm.extractLsb' 5 7 = 0b0100000#7 := by
  simp only [fitsShiftArith, beq_iff_eq] at h
  have : imm.extractLsb' 5 7 = (imm.extractLsb' 5 27).extractLsb' 0 7 := by
    apply BitVec.eq_of_getLsbD_eq
    intro k hk
    simp only [BitVec.getLsbD_extractLsb']
    grind
  rw [this, h]
  rfl

theorem EncodingPattern.add (rd rs1 rs2 : Reg) : Statement (.add rd rs1 rs2) := fun _ =>
  (matches_funct7_funct3_opcode _ 0x00#7 0#3 0x33#7).2 ⟨funct7Field_encodeR .., funct3Field_encodeR .., opcodeField_encodeR ..⟩

theorem EncodingPattern.sub (rd rs1 rs2 : Reg) : Statement (.sub rd rs1 rs2) := fun _ =>
  (matches_funct7_funct3_opcode _ 0x20#7 0#3 0x33#7).2 ⟨funct7Field_encodeR .., funct3Field_encodeR .., opcodeField_encodeR ..⟩

theorem EncodingPattern.sll (rd rs1 rs2 : Reg) : Statement (.sll rd rs1 rs2) := fun _ =>
  (matches_funct7_funct3_opcode _ 0x00#7 1#3 0x33#7).2 ⟨funct7Field_encodeR .., funct3Field_encodeR .., opcodeField_encodeR ..⟩

theorem EncodingPattern.slt (rd rs1 rs2 : Reg) : Statement (.slt rd rs1 rs2) := fun _ =>
  (matches_funct7_funct3_opcode _ 0x00#7 2#3 0x33#7).2 ⟨funct7Field_encodeR .., funct3Field_encodeR .., opcodeField_encodeR ..⟩

theorem EncodingPattern.sltu (rd rs1 rs2 : Reg) : Statement (.sltu rd rs1 rs2) := fun _ =>
  (matches_funct7_funct3_opcode _ 0x00#7 3#3 0x33#7).2 ⟨funct7Field_encodeR .., funct3Field_encodeR .., opcodeField_encodeR ..⟩

theorem EncodingPattern.xor (rd rs1 rs2 : Reg) : Statement (.xor rd rs1 rs2) := fun _ =>
  (matches_funct7_funct3_opcode _ 0x00#7 4#3 0x33#7).2 ⟨funct7Field_encodeR .., funct3Field_encodeR .., opcodeField_encodeR ..⟩

theorem EncodingPattern.srl (rd rs1 rs2 : Reg) : Statement (.srl rd rs1 rs2) := fun _ =>
  (matches_funct7_funct3_opcode _ 0x00#7 5#3 0x33#7).2 ⟨funct7Field_encodeR .., funct3Field_encodeR .., opcodeField_encodeR ..⟩

theorem EncodingPattern.sra (rd rs1 rs2 : Reg) : Statement (.sra rd rs1 rs2) := fun _ =>
  (matches_funct7_funct3_opcode _ 0x20#7 5#3 0x33#7).2 ⟨funct7Field_encodeR .., funct3Field_encodeR .., opcodeField_encodeR ..⟩

theorem EncodingPattern.or (rd rs1 rs2 : Reg) : Statement (.or rd rs1 rs2) := fun _ =>
  (matches_funct7_funct3_opcode _ 0x00#7 6#3 0x33#7).2 ⟨funct7Field_encodeR .., funct3Field_encodeR .., opcodeField_encodeR ..⟩

theorem EncodingPattern.and (rd rs1 rs2 : Reg) : Statement (.and rd rs1 rs2) := fun _ =>
  (matches_funct7_funct3_opcode _ 0x00#7 7#3 0x33#7).2 ⟨funct7Field_encodeR .., funct3Field_encodeR .., opcodeField_encodeR ..⟩

theorem EncodingPattern.addi (rd rs1 : Reg) (imm : Word) : Statement (.addi rd rs1 imm) := fun _ =>
  (matches_funct3_opcode _ 0#3 0x13#7).2 ⟨funct3Field_encodeI .., opcodeField_encodeI ..⟩

theorem EncodingPattern.slti (rd rs1 : Reg) (imm : Word) : Statement (.slti rd rs1 imm) := fun _ =>
  (matches_funct3_opcode _ 2#3 0x13#7).2 ⟨funct3Field_encodeI .., opcodeField_encodeI ..⟩

theorem EncodingPattern.sltiu (rd rs1 : Reg) (imm : Word) : Statement (.sltiu rd rs1 imm) := fun _ =>
  (matches_funct3_opcode _ 3#3 0x13#7).2 ⟨funct3Field_encodeI .., opcodeField_encodeI ..⟩

theorem EncodingPattern.xori (rd rs1 : Reg) (imm : Word) : Statement (.xori rd rs1 imm) := fun _ =>
  (matches_funct3_opcode _ 4#3 0x13#7).2 ⟨funct3Field_encodeI .., opcodeField_encodeI ..⟩

theorem EncodingPattern.ori (rd rs1 : Reg) (imm : Word) : Statement (.ori rd rs1 imm) := fun _ =>
  (matches_funct3_opcode _ 6#3 0x13#7).2 ⟨funct3Field_encodeI .., opcodeField_encodeI ..⟩

theorem EncodingPattern.andi (rd rs1 : Reg) (imm : Word) : Statement (.andi rd rs1 imm) := fun _ =>
  (matches_funct3_opcode _ 7#3 0x13#7).2 ⟨funct3Field_encodeI .., opcodeField_encodeI ..⟩

theorem EncodingPattern.slli (rd rs1 : Reg) (imm : Word) : Statement (.slli rd rs1 imm) := fun h =>
  (matches_funct7_funct3_opcode _ 0x00#7 1#3 0x13#7).2 ⟨(funct7Field_encodeI ..).trans (funct7_of_fitsShift h), funct3Field_encodeI .., opcodeField_encodeI ..⟩

theorem EncodingPattern.srli (rd rs1 : Reg) (imm : Word) : Statement (.srli rd rs1 imm) := fun h =>
  (matches_funct7_funct3_opcode _ 0x00#7 5#3 0x13#7).2 ⟨(funct7Field_encodeI ..).trans (funct7_of_fitsShift h), funct3Field_encodeI .., opcodeField_encodeI ..⟩

theorem EncodingPattern.srai (rd rs1 : Reg) (imm : Word) : Statement (.srai rd rs1 imm) := fun h =>
  (matches_funct7_funct3_opcode _ 0x20#7 5#3 0x13#7).2
    ⟨(funct7Field_encodeI ..).trans (funct7_of_fitsShiftArith h), funct3Field_encodeI .., opcodeField_encodeI ..⟩

theorem EncodingPattern.lui (rd : Reg) (imm : Word) : Statement (.lui rd imm) := fun _ =>
  (matches_opcode _ 0x37#7).2 (opcodeField_encodeU ..)

theorem EncodingPattern.auipc (rd : Reg) (imm : Word) : Statement (.auipc rd imm) := fun _ =>
  (matches_opcode _ 0x17#7).2 (opcodeField_encodeU ..)

theorem EncodingPattern.lb (rd rs1 : Reg) (imm : Word) : Statement (.lb rd rs1 imm) := fun _ =>
  (matches_funct3_opcode _ 0#3 0x03#7).2 ⟨funct3Field_encodeI .., opcodeField_encodeI ..⟩

theorem EncodingPattern.lh (rd rs1 : Reg) (imm : Word) : Statement (.lh rd rs1 imm) := fun _ =>
  (matches_funct3_opcode _ 1#3 0x03#7).2 ⟨funct3Field_encodeI .., opcodeField_encodeI ..⟩

theorem EncodingPattern.lw (rd rs1 : Reg) (imm : Word) : Statement (.lw rd rs1 imm) := fun _ =>
  (matches_funct3_opcode _ 2#3 0x03#7).2 ⟨funct3Field_encodeI .., opcodeField_encodeI ..⟩

theorem EncodingPattern.lbu (rd rs1 : Reg) (imm : Word) : Statement (.lbu rd rs1 imm) := fun _ =>
  (matches_funct3_opcode _ 4#3 0x03#7).2 ⟨funct3Field_encodeI .., opcodeField_encodeI ..⟩

theorem EncodingPattern.lhu (rd rs1 : Reg) (imm : Word) : Statement (.lhu rd rs1 imm) := fun _ =>
  (matches_funct3_opcode _ 5#3 0x03#7).2 ⟨funct3Field_encodeI .., opcodeField_encodeI ..⟩

theorem EncodingPattern.sb (rs1 rs2 : Reg) (imm : Word) : Statement (.sb rs1 rs2 imm) := fun _ =>
  (matches_funct3_opcode _ 0#3 0x23#7).2 ⟨funct3Field_encodeS .., opcodeField_encodeS ..⟩

theorem EncodingPattern.sh (rs1 rs2 : Reg) (imm : Word) : Statement (.sh rs1 rs2 imm) := fun _ =>
  (matches_funct3_opcode _ 1#3 0x23#7).2 ⟨funct3Field_encodeS .., opcodeField_encodeS ..⟩

theorem EncodingPattern.sw (rs1 rs2 : Reg) (imm : Word) : Statement (.sw rs1 rs2 imm) := fun _ =>
  (matches_funct3_opcode _ 2#3 0x23#7).2 ⟨funct3Field_encodeS .., opcodeField_encodeS ..⟩

theorem EncodingPattern.beq (rs1 rs2 : Reg) (imm : Word) : Statement (.beq rs1 rs2 imm) := fun _ =>
  (matches_funct3_opcode _ 0#3 0x63#7).2 ⟨funct3Field_encodeB .., opcodeField_encodeB ..⟩

theorem EncodingPattern.bne (rs1 rs2 : Reg) (imm : Word) : Statement (.bne rs1 rs2 imm) := fun _ =>
  (matches_funct3_opcode _ 1#3 0x63#7).2 ⟨funct3Field_encodeB .., opcodeField_encodeB ..⟩

theorem EncodingPattern.blt (rs1 rs2 : Reg) (imm : Word) : Statement (.blt rs1 rs2 imm) := fun _ =>
  (matches_funct3_opcode _ 4#3 0x63#7).2 ⟨funct3Field_encodeB .., opcodeField_encodeB ..⟩

theorem EncodingPattern.bge (rs1 rs2 : Reg) (imm : Word) : Statement (.bge rs1 rs2 imm) := fun _ =>
  (matches_funct3_opcode _ 5#3 0x63#7).2 ⟨funct3Field_encodeB .., opcodeField_encodeB ..⟩

theorem EncodingPattern.bltu (rs1 rs2 : Reg) (imm : Word) : Statement (.bltu rs1 rs2 imm) := fun _ =>
  (matches_funct3_opcode _ 6#3 0x63#7).2 ⟨funct3Field_encodeB .., opcodeField_encodeB ..⟩

theorem EncodingPattern.bgeu (rs1 rs2 : Reg) (imm : Word) : Statement (.bgeu rs1 rs2 imm) := fun _ =>
  (matches_funct3_opcode _ 7#3 0x63#7).2 ⟨funct3Field_encodeB .., opcodeField_encodeB ..⟩

theorem EncodingPattern.jalr (rd rs1 : Reg) (imm : Word) : Statement (.jalr rd rs1 imm) := fun _ =>
  (matches_funct3_opcode _ 0#3 0x67#7).2 ⟨funct3Field_encodeI .., opcodeField_encodeI ..⟩

theorem EncodingPattern.jal (rd : Reg) (imm : Word) : Statement (.jal rd imm) := fun _ =>
  (matches_opcode _ 0x6F#7).2 (opcodeField_encodeJ ..)

end Sys2Proof.Laws
end

