-- ==== Sys2Proof/Laws/Registers.lean ====
section
/-! SUPPORT. What reading and writing a register can do (R12, R22). -/

namespace Sys2Proof.Machine

@[simp] theorem regRead_zero (x : Vector Word 32) : regRead x 0 = 0#32 := by simp [regRead]

@[simp] theorem regWrite_zero (x : Vector Word 32) (v : Word) : regWrite x 0 v = x := by simp [regWrite]

/-- Read after write. -/
theorem regRead_regWrite (x : Vector Word 32) (rd r : Reg) (v : Word) :
    regRead (regWrite x rd v) r = if r = rd ∧ rd ≠ 0 then v else regRead x r := by
  by_cases hd : rd = 0
  · simp [regWrite, hd]
  · by_cases hr : r = 0
    · subst hr
      have : ¬ (0 = rd ∧ rd ≠ 0) := fun h => h.2 h.1.symm
      rw [regRead_zero, regRead_zero, if_neg this]
    · by_cases he : r = rd
      · simp [regRead, regWrite, hd, he]
      · have hv : rd.val ≠ r.val := fun h => he (Fin.ext h.symm)
        simp [regRead, regWrite, hd, hr, he, hv]

/-- The slot of register 0 is never written. -/
@[simp] theorem regWrite_slot_zero (x : Vector Word 32) (rd : Reg) (v : Word) : (regWrite x rd v)[0] = x[0] := by
  by_cases hd : rd = 0
  · simp [regWrite, hd]
  · have hv : rd.val ≠ 0 := fun h => hd (Fin.ext h)
    simp [regWrite, hd, hv]

end Sys2Proof.Machine
end

