-- ==== Sys2Proof/Laws/Pipeline.lean ====
section
/-! SUPPORT. What each stage does to the architectural state behind the pipeline (R172 to R189): the write-back, the
forwarded operands, the effect of an instruction's trip through Execute, Memory and Writeback, and where control goes
after Decode. -/

namespace Sys2Proof.Machine

/-! ## The control unit and the hazard sources (R122, R140) -/

/-- R123 (a). -/
theorem controlSignals_load (i : Snapshot) : (controlSignals i).memoryToRegister = (controlSignals i).memoryRead := by
  rcases i with ⟨raw, _ | i⟩
  · rfl
  · cases i <;> rfl

/-- R122, INVALID. -/
theorem controlSignals_none {i : Snapshot} (h : i.instr = none) :
    controlSignals i = Ctrl.off := by
  simp [controlSignals, h]

/-- Every register field an instruction has is a source, except rd (R140). -/
theorem mem_sources (i : Snapshot) (r : Reg) : r ∈ sources i ↔ i.rs1 = some r ∨ i.rs2 = some r := by
  rcases i with ⟨raw, _ | i⟩
  · simp [sources, Snapshot.fmt, Snapshot.rs1, Snapshot.rs2]
  · cases i <;> simp [sources, Snapshot.fmt, Instr.fmt, Snapshot.rs1, Snapshot.rs2, Instr.rs1, Instr.rs2, eq_comm]

theorem mem_hazardSources (i : Snapshot) (r : Reg) :
    r ∈ hazardSources i ↔ (i.rs1 = some r ∨ i.rs2 = some r) ∧ r ≠ 0 := by
  simp [hazardSources, mem_sources]

/-! ## Writeback (R172) -/

/-- A register after an entry's commit. -/
theorem regRead_commit (w : MemWb) (x : Vector Word 32) (r : Reg) :
    regRead (w.commit x) r = if produces w.instr w.ctrl r then w.committed else regRead x r := by
  unfold MemWb.commit produces
  cases w.ctrl.registerWrite
  · simp
  · rcases h : w.instr.rd with _ | d
    · simp
    · simp only [if_true, regRead_regWrite, Bool.true_and]
      by_cases hd : d = r
      · subst hd; by_cases h0 : d = 0 <;> simp [h0]
      · have : ¬ r = d := fun h => hd h.symm
        simp [hd, this]

/-- A register after this tick's Writeback. -/
theorem regRead_writebackRegs (s : State) (r : Reg) :
    regRead (writebackRegs s) r = if s.memwbProduces r then (s.memwb.map MemWb.committed).getD 0 else regRead s.x r := by
  unfold writebackRegs State.memwbProduces
  rcases s.memwb with _ | w
  · simp
  · simp [regRead_commit]

/-! ## Who produces what after a tick (R38, R175, R176) -/

@[simp] theorem exmemProduces_tick (s : State) (r : Reg) : (tick s).exmemProduces r = s.idexProduces r := by
  simp only [State.exmemProduces, State.idexProduces, tick_exmem, executeStage, Option.any_map]
  rfl

@[simp] theorem exmemLoads_tick (s : State) (r : Reg) : (tick s).exmemLoads r = s.idexLoads r := by
  simp only [State.exmemLoads, State.idexLoads, tick_exmem, executeStage, Option.any_map]
  rfl

@[simp] theorem memwbProduces_tick (s : State) (r : Reg) : (tick s).memwbProduces r = s.exmemProduces r := by
  simp only [State.memwbProduces, State.exmemProduces, tick_memwb, memoryStage, Option.any_map]
  rfl

@[simp] theorem memwbLoads_tick (s : State) (r : Reg) : (tick s).memwbLoads r = s.exmemLoads r := by
  simp only [State.memwbLoads, State.exmemLoads, tick_memwb, memoryStage, Option.any_map]
  rfl

/-- A stalled Decode puts a bubble into ID/EX and keeps IF/ID and the program counter (R178, R182). -/
theorem tick_of_decodeStalled {s : State} (h : decodeStalled s = true) :
    (tick s).idex = none ∧ (tick s).ifid = s.ifid ∧ (tick s).pc = s.pc := by
  simp [decodeStage, nextIfid, nextPc, decodeRedirect, fetchStage, nextSequentialPc, h]

/-- A stalled Fetch, with no redirect, leaves IF/ID empty and keeps the program counter (R181). -/
theorem tick_of_fetchStalled {s : State} (h : fetchStalled s = true) (hr : decodeRedirect s = none) :
    (tick s).ifid = none ∧ (tick s).pc = s.pc := by
  have hd : decodeStalled s = false := by
    unfold fetchStalled at h
    cases hd : decodeStalled s <;> simp_all
  simp [nextIfid, nextPc, fetchStage, nextSequentialPc, h, hr, hd]

/-- A redirect flushes IF/ID and moves the program counter (R183). -/
theorem tick_of_redirect {s : State} {target : Word} (h : decodeRedirect s = some target) :
    (tick s).ifid = none ∧ (tick s).pc = target := by
  simp [nextIfid, nextPc, h]

/-- A fetch that is kept (R180). -/
theorem tick_of_fetchKept {s : State} (h : fetchKept s = true) :
    (tick s).ifid = some { pc := s.pc, raw := fetchedWord s } ∧ (tick s).pc = s.pc + 4#32 := by
  simp only [fetchKept, Bool.and_eq_true, Bool.not_eq_true', Option.isNone_iff_eq_none] at h
  simp [nextIfid, nextPc, fetchStage, nextSequentialPc, h]

/-- Nothing in flight stalls nothing. -/
theorem fetchKept_of_empty {s : State} (h1 : s.ifid = none) (h2 : s.idex = none) (h3 : s.memwb = none) :
    fetchKept s = true := by
  simp [fetchKept, decodeStalled, decodeRedirect, fetchStalled, fetchStall, State.idexLoads, State.memwbLoads, h1, h2, h3]

/-! ## Operands once EX/MEM and MEM/WB are done (R150 to R153) -/

theorem completeExmem_x (s : State) : (completeExmem (completeMemwb s)).x =
    match s.exmem with
    | some m => (m.access s.cfg.dmemSize s.dmem).commit (writebackRegs s)
    | none => writebackRegs s := by
  unfold completeExmem
  simp only [completeMemwb_exmem]
  rcases s.exmem with _ | m <;> rfl

/-- An operand read after EX/MEM and MEM/WB have been completed is the forwarded one (R150, R152). -/
theorem regRead_completeExmem (s : State) (r : Reg) (latched : Word)
    (hm : ∀ m ∈ s.exmem, m.ctrl = controlSignals m.instr)
    (hl : s.exmemLoads r = false) (h0 : r = 0 → latched = 0#32)
    (hx : s.memwbProduces r = false → latched = regRead s.x r) :
    regRead (completeExmem (completeMemwb s)).x r = forwardValue (some r) latched s := by
  have hwb := regRead_writebackRegs s r
  by_cases hr : r = 0
  · subst hr; simp [forwardValue, h0]
  rw [completeExmem_x]
  unfold State.exmemLoads producesLoad at hl
  unfold forwardValue State.exmemProduces
  rcases he : s.exmem with _ | m
  · simp only [Option.any_none, hr, if_false, hwb]
    by_cases hp : s.memwbProduces r = true
    · simp only [hp, if_true]
      rcases hw : s.memwb with _ | w
      · simp [State.memwbProduces, hw] at hp
      · rfl
    · simp [hp, hx]
  · simp only [he, Option.any_some, hr, if_false] at *
    rw [regRead_commit]
    by_cases hp : produces m.instr m.ctrl r = true
    · have hc : m.ctrl.memoryToRegister = false := by
        rw [hm m (by simp), controlSignals_load, ← hm m (by simp)]; simpa [hp] using hl
      simp [hp, ExMem.access, MemWb.committed, hc]
    · simp only [ExMem.access, hp, hwb]
      by_cases hq : s.memwbProduces r = true
      · simp only [hq, if_true]
        rcases hw : s.memwb with _ | w
        · simp [State.memwbProduces, hw] at hq
        · simp
      · simp [hq, hx]

/-- Where EX/MEM produces no such register, it is the one after Writeback. -/
theorem regRead_completeExmem_of_none (s : State) (r : Reg) (h1 : s.exmemProduces r = false) :
    regRead (completeExmem (completeMemwb s)).x r = regRead (writebackRegs s) r := by
  rw [completeExmem_x]
  unfold State.exmemProduces at h1
  rcases he : s.exmem with _ | m
  · rfl
  · simp [he] at h1
    simp [regRead_commit, ExMem.access, h1]


/-! ## The reference reads only the architectural state (R188) -/

/-- The same registers, data memory, retired count and run constants. -/
structure SameArch (u v : State) : Prop where
  x : u.x = v.x
  dmem : u.dmem = v.dmem
  retired : u.retired = v.retired
  cfg : u.cfg = v.cfg

theorem SameArch.seqRun {u v : State} (h : SameArch u v) (i : Snapshot) (pc : Word) {u' v' : State}
    (hu : u'.x = u.x ∧ u'.dmem = u.dmem ∧ u'.retired = u.retired ∧ u'.cfg = u.cfg ∧ u'.pc = pc)
    (hv : v'.x = v.x ∧ v'.dmem = v.dmem ∧ v'.retired = v.retired ∧ v'.cfg = v.cfg ∧ v'.pc = pc) :
    SameArch (Machine.seqRun i u') (Machine.seqRun i v') ∧ (Machine.seqRun i u').pc = (Machine.seqRun i v').pc := by
  obtain ⟨a1, a2, a3, a4⟩ := h
  obtain ⟨u1,u2,u3,u4,u5⟩ := hu
  obtain ⟨v1,v2,v3,v4,v5⟩ := hv
  have hx : u'.x = v'.x := by rw [u1, v1, a1]
  have hd : u'.dmem = v'.dmem := by rw [u2, v2, a2]
  have hr : u'.retired = v'.retired := by rw [u3, v3, a3]
  have hc : u'.cfg = v'.cfg := by rw [u4, v4, a4]
  have hp : u'.pc = v'.pc := by rw [u5, v5]
  unfold Machine.seqRun
  split
  · exact ⟨⟨hx, hd, hr, hc⟩, by simp [hp]⟩
  · exact ⟨⟨by simp only [State.load, hx, hp, hd, hc], by simp only [hx, hp, hd, hc], by simp only [hr], hc⟩, by simp only [hx, hp]⟩

/-! What the reference leaves alone. -/

@[simp] theorem seqRun_cfg (i : Snapshot) (s : State) : (seqRun i s).cfg = s.cfg := by unfold seqRun; split <;> rfl
@[simp] theorem seqRun_ifid (i : Snapshot) (s : State) : (seqRun i s).ifid = s.ifid := by unfold seqRun; split <;> rfl
@[simp] theorem seqRun_idex (i : Snapshot) (s : State) : (seqRun i s).idex = s.idex := by unfold seqRun; split <;> rfl
@[simp] theorem seqRun_exmem (i : Snapshot) (s : State) : (seqRun i s).exmem = s.exmem := by unfold seqRun; split <;> rfl
@[simp] theorem seqRun_memwb (i : Snapshot) (s : State) : (seqRun i s).memwb = s.memwb := by unfold seqRun; split <;> rfl
@[simp] theorem seqRun_cycle (i : Snapshot) (s : State) : (seqRun i s).cycle = s.cycle := by unfold seqRun; split <;> rfl

/-- Execute, Memory and Writeback do to an instruction, on the operands the registers hold, what the reference does. -/
theorem seqRun_eq_backEnd (e : IdEx) (s : State) (hc : e.ctrl = controlSignals e.instr) (hi : e.imm = e.instr.imm)
    (s' : State) (hs : s'.x = s.x ∧ s'.dmem = s.dmem ∧ s'.retired = s.retired ∧ s'.cfg = s.cfg ∧ s'.pc = e.pc) :
    let m := e.execute (latchOperand s.x e.instr.rs1) (latchOperand s.x e.instr.rs2)
    (seqRun e.instr s').x = (m.access s.cfg.dmemSize s.dmem).commit s.x
    ∧ (seqRun e.instr s').dmem = m.storeTo s.cfg.dmemSize s.dmem
    ∧ (seqRun e.instr s').retired = s.retired + retireCount e.instr := by
  obtain ⟨u1,u2,u3,u4,u5⟩ := hs
  intro m
  rcases hn : e.instr.instr with _ | i
  · have h0 : e.ctrl = Ctrl.off := by rw [hc, controlSignals_none hn]
    simp [seqRun, hn, u1, u2, u3, m, ExMem.access, MemWb.commit, IdEx.execute, ExMem.storeTo, h0, Ctrl.off, retireCount]
  · have hl := controlSignals_load e.instr
    simp only [seqRun, hn, Option.isNone_some, Bool.false_eq_true, if_false, u1, u2, u3, u4, u5, m, ExMem.access, MemWb.commit, IdEx.execute, ExMem.storeTo, retireCount, Option.isSome_some, if_true, MemWb.committed, hc, hl, IdEx.result, IdEx.secondOperand, hi, State.load, and_self, and_true]
    split
    · rcases e.instr.rd with _ | d
      · rfl
      · simp only []; congr 1; split <;> simp_all
    · rfl

/-! ## The state behind the pipeline, before and after a tick -/

theorem latchOperand_some (x : Vector Word 32) (r : Reg) : latchOperand x (some r) = regRead x r := rfl

@[simp] theorem olderThanExecute_idex (s : State) : (olderThanExecute s).idex = s.idex := by
  unfold olderThanExecute completeExmem
  simp only [completeMemwb_exmem]
  rcases s.exmem with _ | m <;> rfl

@[simp] theorem olderThanExecute_cfg (s : State) : (olderThanExecute s).cfg = s.cfg := by
  unfold olderThanExecute completeExmem
  simp only [completeMemwb_exmem]
  rcases s.exmem with _ | m <;> rfl

/-- Execute's operands are those of the completed back end (R151, R152). -/
theorem exOperands_correct {s : State} (hc : Consistent s) (e : IdEx) (he : s.idex = some e) :
    exOperands e s = (latchOperand (olderThanExecute s).x e.instr.rs1, latchOperand (olderThanExecute s).x e.instr.rs2) := by
  have hl := hc.latched e (by simp [he])
  have hm : ∀ m ∈ s.exmem, m.ctrl = controlSignals m.instr := fun m hm => (hc.exmemEntry m hm).2
  have key : ∀ o, (∀ r, o = some r → r ∈ sources e.instr) →
     (if s.cfg.forwarding then forwardValue o (latchOperand s.x o) s else latchOperand s.x o) = latchOperand (olderThanExecute s).x o := by
    intro o ho
    rcases o with _ | r
    · simp [forwardValue, latchOperand]
    · have hs := ho r rfl
      rw [latchOperand_some, latchOperand_some]
      by_cases h0 : r = 0
      · subst h0; simp [forwardValue]
      have ha := hc.available e (by simp [he]) r (by simp [hazardSources, hs, h0])
      by_cases hf : s.cfg.forwarding = true
      · simp only [hf, if_true] at *
        exact (regRead_completeExmem s r _ hm ha (fun h => absurd h h0) (fun _ => rfl)).symm
      · simp only [hf] at *
        have ha : s.exmemProduces r = false ∧ s.memwbProduces r = false := by simpa using ha
        unfold olderThanExecute
        rw [regRead_completeExmem_of_none _ _ ha.1, regRead_writebackRegs, ha.2]; simp
  unfold exOperands
  have k1 := key e.instr.rs1 (fun r h => (mem_sources _ _).2 (.inl h))
  have k2 := key e.instr.rs2 (fun r h => (mem_sources _ _).2 (.inr h))
  rw [hl.1, hl.2, ← k1, ← k2]
  split <;> rfl

/-- After a tick the completed back end is the one before with the instruction of ID/EX run. -/
theorem olderThanExecute_tick {s : State} (hc : Consistent s) :
    SameArch (olderThanExecute (tick s)) (olderThanDecode s) := by
  have hA : SameArch (completeMemwb (tick s)) (olderThanExecute s) := by
    unfold olderThanExecute completeExmem; simp only [completeMemwb_exmem]
    refine ⟨?_,?_,?_,?_⟩
    · simp only [completeMemwb_x, writebackRegs, tick_memwb, memoryStage, tick_x]
      rcases s.exmem with _ | m <;> rfl
    · simp only [completeMemwb_dmem, tick_dmem, memoryData]; rcases s.exmem with _ | m <;> rfl
    · simp only [completeMemwb_retired, writebackRetired, tick_memwb, memoryStage, tick_retired]
      rcases s.exmem with _ | m <;> rfl
    · rcases s.exmem with _ | m <;> rfl
  rcases he : s.idex with _ | e
  · have h1 : olderThanExecute (tick s) = completeMemwb (tick s) := by
      simp [olderThanExecute, completeExmem, executeStage, he]
    have h2 : olderThanDecode s = olderThanExecute s := by simp [olderThanDecode, completeIdex, olderThanExecute_idex, he]
    rw [h1, h2]; exact hA
  · have hex : (tick s).exmem = some (e.execute (latchOperand (olderThanExecute s).x e.instr.rs1) (latchOperand (olderThanExecute s).x e.instr.rs2)) := by
      simp [executeStage, he, exOperands_correct hc e he]
    obtain ⟨⟨ei, ec⟩, eimm⟩ := hc.idexEntry e (by simp [he])
    have hb := seqRun_eq_backEnd e (olderThanExecute s) ec eimm { olderThanExecute s with pc := e.pc, idex := none } ⟨rfl, rfl, rfl, rfl, rfl⟩
    have h2 : olderThanDecode s = seqRun e.instr { olderThanExecute s with pc := e.pc, idex := none } := by
      simp [olderThanDecode, completeIdex, olderThanExecute_idex, he]
    rw [h2]
    obtain ⟨b1, b2, b3⟩ := hb
    have h1 : olderThanExecute (tick s) = completeExmem (completeMemwb (tick s)) := rfl
    rw [h1]; unfold completeExmem; simp only [completeMemwb_exmem, hex]
    refine ⟨?_,?_,?_,?_⟩
    · rw [b1]; simp only [hA.x, hA.dmem, hA.cfg]
    · rw [b2]; simp only [hA.dmem, hA.cfg]
    · rw [b3, ← hA.retired]; rfl
    · rw [seqRun_cfg]; exact hA.cfg

/-- The reference leaves a register its instruction does not produce. -/
theorem seqRun_regRead (i : Snapshot) (s : State) (r : Reg) (h : produces i (controlSignals i) r = false) :
    regRead (seqRun i s).x r = regRead s.x r := by
  unfold seqRun
  split
  · rfl
  · simp only
    unfold produces at h
    split
    · rcases hd : i.rd with _ | d
      · rfl
      · simp only [regRead_regWrite]
        apply if_neg; rintro ⟨rfl, h0⟩
        simp_all
    · rfl

/-- The operands a branch or JALR resolves with are those of all older instructions completed (R146, R153). -/
theorem controlFlow_operands {s : State} (hc : Consistent s) (d : IfId) (hd : s.ifid = some d)
    (hn : decodeStalled s = false) (hcf : isControlFlow (snapshot d.raw) = true) :
    let i := snapshot d.raw
    resolveOperands d s = (latchOperand (olderThanDecode s).x i.rs1, latchOperand (olderThanDecode s).x i.rs2) := by
  intro i
  have hm : ∀ m ∈ s.exmem, m.ctrl = controlSignals m.instr := fun m hm => (hc.exmemEntry m hm).2
  have hst : decodeStall i s = false := by simpa [decodeStalled, hd] using hn
  have hID : ∀ r, s.idexProduces r = false → regRead (olderThanDecode s).x r = regRead (olderThanExecute s).x r := by
    intro r hr
    unfold olderThanDecode completeIdex
    rw [olderThanExecute_idex]
    unfold State.idexProduces at hr
    rcases he : s.idex with _ | e
    · rfl
    · have hec := (hc.idexEntry e (by simp [he])).1.2
      simp only [he, Option.any_some] at hr
      rw [hec] at hr
      exact seqRun_regRead _ _ _ hr
  have key : ∀ o, (∀ r, o = some r → r ∈ sources i) →
     (if s.cfg.forwarding then forwardValue o (latchOperand (writebackRegs s) o) s else latchOperand (writebackRegs s) o) = latchOperand (olderThanDecode s).x o := by
    intro o ho
    rcases o with _ | r
    · simp [forwardValue, latchOperand]
    · have hs := ho r rfl
      rw [latchOperand_some, latchOperand_some]
      by_cases h0 : r = 0
      · subst h0; simp [forwardValue]
      have hh : r ∈ hazardSources i := by simp [hazardSources, hs, h0]
      by_cases hf : s.cfg.forwarding = true
      · simp only [decodeStall, hf, if_true, Bool.or_eq_false_iff, controlFlowWait, i, hcf, Bool.true_and] at hst
        have := List.any_eq_false.1 hst.2 r hh
        simp only [Bool.or_eq_true, not_or, Bool.not_eq_true] at this
        rw [if_pos hf, hID r this.1]
        refine (regRead_completeExmem s r _ hm this.2 (fun h => absurd h h0) (fun h => ?_)).symm
        rw [regRead_writebackRegs, h]; simp
      · simp only [decodeStall, hf, decodeStallNoFwd] at hst
        have := List.any_eq_false.1 hst r hh
        simp only [Bool.or_eq_true, not_or, Bool.not_eq_true] at this
        rw [if_neg hf, hID r this.1.1]
        exact (regRead_completeExmem_of_none _ _ this.1.2).symm
  unfold resolveOperands decodeOperands
  have k1 := key i.rs1 (fun r h => (mem_sources _ _).2 (.inl h))
  have k2 := key i.rs2 (fun r h => (mem_sources _ _).2 (.inr h))
  rw [← k1, ← k2]
  split <;> rfl

/-- Where the instruction in Decode sends control: its redirect, else the next address (R179, R183). -/
theorem seqRun_pc {s : State} (hc : Consistent s) (d : IfId) (hd : s.ifid = some d) (hn : decodeStalled s = false)
    (s' : State) (hx : s'.x = (olderThanDecode s).x) (hp : s'.pc = d.pc) :
    (seqRun (snapshot d.raw) s').pc = (decodeRedirect s).getD (d.pc + 4#32) := by
  have hco := controlFlow_operands hc d hd hn
  simp only [decodeRedirect, hn, hd, Option.bind_some]
  generalize snapshot d.raw = i at *
  unfold resolve seqRun
  rcases hi : i.instr with _ | j
  · simp [controlSignals_none hi, Ctrl.off, hp]
  · simp only [Option.isNone_some, Bool.false_eq_true, if_false]
    by_cases hcf : isControlFlow i = true
    · simp only [hco hcf, hx, hp, seqNextPc, hi]
      cases j <;> simp_all [controlSignals, controlRow, ctrlRegReg, ctrlRegImm, ctrlLoad, ctrlStore, ctrlBranch, ctrlJump, Ctrl.off, isControlFlow] <;>
        split <;> rfl
    · simp only [seqNextPc, hi, hp]
      cases j <;> simp_all [controlSignals, controlRow, ctrlRegReg, ctrlRegImm, ctrlLoad, ctrlStore, ctrlBranch, ctrlJump, Ctrl.off, isControlFlow]

theorem olderThanDecode_fields (s : State) :
    (olderThanDecode s).ifid = s.ifid 
    ∧ (olderThanDecode s).idex = none ∧ (olderThanDecode s).exmem = none ∧ (olderThanDecode s).memwb = none ∧ (olderThanDecode s).cycle = s.cycle
    ∧ (olderThanDecode s).cfg = s.cfg := by
  unfold olderThanDecode completeIdex olderThanExecute completeExmem; simp only [completeMemwb_exmem]
  rcases hx : s.exmem with _ | m <;> rcases he : s.idex with _ | e <;> simp [hx, he]

theorem complete_eq (s : State) : complete s = completeIfid s.pc (olderThanDecode s) := rfl

theorem complete_fields (s : State) :
    (complete s).ifid = none ∧ (complete s).idex = none
    ∧ (complete s).exmem = none ∧ (complete s).memwb = none ∧ (complete s).cycle = s.cycle ∧ (complete s).cfg = s.cfg := by
  obtain ⟨h1,h2,h3,h4,h5,h6⟩ := olderThanDecode_fields s
  rw [complete_eq, completeIfid]
  rw [h1]
  rcases hd : s.ifid with _ | d
  · simp only; exact ⟨trivial, h2, h3, h4, h5, h6⟩
  · simp only [seqRun_ifid, seqRun_idex, seqRun_exmem, seqRun_memwb, seqRun_cycle, seqRun_cfg]; exact ⟨trivial, h2, h3, h4, h5, h6⟩

/-- Two states are equal if all their fields are. -/
theorem SameArch.eq {u v : State} (h : SameArch u v) (hp : u.pc = v.pc) (h1 : u.ifid = v.ifid) (h2 : u.idex = v.idex)
    (h3 : u.exmem = v.exmem) (h4 : u.memwb = v.memwb) (h5 : u.cycle = v.cycle) : u = v := by
  cases u; cases v; cases h; simp_all

end Sys2Proof.Machine
end

