-- ==== Sys2Proof/Tests/Slice0.lean ====
section
/-! SUPPORT. The model's own tests: expected values from spec/95_test_vectors.md and spec/opcode_table.json. First the
smoke test of WellFormed, then one decode test and one step per instruction, then the pipeline, then for every
statement with hypotheses a witness that meets them. -/

namespace Sys2Proof.Tests

open Sys2Proof Sys2Proof.Machine Sys2Proof.Claims

/-! ## WellFormed refuses, one ill-formed term for each check -/

theorem test_wf_refuses_imm12_2048 : (Instr.addi 3 1 0x00000800#32).wf = false := by decide
theorem test_wf_refuses_store_imm12 : (Instr.sw 1 2 0xFFFFF7FF#32).wf = false := by decide
theorem test_wf_refuses_imm13_odd : (Instr.beq 1 2 0x00000001#32).wf = false := by decide
theorem test_wf_refuses_imm13_4096 : (Instr.bgeu 1 2 0x00001000#32).wf = false := by decide
theorem test_wf_refuses_imm21_odd : (Instr.jal 1 0x00000003#32).wf = false := by decide
theorem test_wf_refuses_imm21_1048576 : (Instr.jal 1 0x00100000#32).wf = false := by decide
theorem test_wf_refuses_upper_low_bits : (Instr.lui 5 0x00001001#32).wf = false := by decide
theorem test_wf_refuses_shift_by_32 : (Instr.slli 3 1 0x00000020#32).wf = false := by decide
theorem test_wf_refuses_srai_without_selector : (Instr.srai 3 1 0x00000004#32).wf = false := by decide
theorem test_wf_accepts_bounds :
    (Instr.addi 3 1 0xFFFFF800#32).wf = true ∧ (Instr.beq 1 2 0xFFFFF000#32).wf = true
    ∧ (Instr.jal 1 0xFFF00000#32).wf = true ∧ (Instr.srai 3 1 0x0000041F#32).wf = true
    ∧ (Instr.slli 3 1 0x0000001F#32).wf = true ∧ (Instr.lui 5 0xFFFFF000#32).wf = true := by decide

/-! ## Decoding: a word of section 2.1 for each instruction -/

theorem test_decode_add : decode 0x002081B3#32 = .ok (.add 3 1 2) := by decide
theorem test_decode_sub : decode 0x402081B3#32 = .ok (.sub 3 1 2) := by decide
theorem test_decode_sll : decode 0x002091B3#32 = .ok (.sll 3 1 2) := by decide
theorem test_decode_slt : decode 0x0020A1B3#32 = .ok (.slt 3 1 2) := by decide
theorem test_decode_sltu : decode 0x0020B1B3#32 = .ok (.sltu 3 1 2) := by decide
theorem test_decode_xor : decode 0x0020C1B3#32 = .ok (.xor 3 1 2) := by decide
theorem test_decode_srl : decode 0x0020D1B3#32 = .ok (.srl 3 1 2) := by decide
theorem test_decode_sra : decode 0x4020D1B3#32 = .ok (.sra 3 1 2) := by decide
theorem test_decode_or : decode 0x0020E1B3#32 = .ok (.or 3 1 2) := by decide
theorem test_decode_and : decode 0x01DF7FB3#32 = .ok (.and 31 30 29) := by decide
theorem test_decode_addi : decode 0xFFF08193#32 = .ok (.addi 3 1 0xFFFFFFFF#32) := by decide
theorem test_decode_slti : decode 0xFFF0A193#32 = .ok (.slti 3 1 0xFFFFFFFF#32) := by decide
theorem test_decode_sltiu : decode 0xFFF0B193#32 = .ok (.sltiu 3 1 0xFFFFFFFF#32) := by decide
theorem test_decode_xori : decode 0xFFF0C193#32 = .ok (.xori 3 1 0xFFFFFFFF#32) := by decide
theorem test_decode_ori : decode 0xFFF0E193#32 = .ok (.ori 3 1 0xFFFFFFFF#32) := by decide
theorem test_decode_andi : decode 0xFFF0F193#32 = .ok (.andi 3 1 0xFFFFFFFF#32) := by decide
theorem test_decode_slli : decode 0x01F09193#32 = .ok (.slli 3 1 0x0000001F#32) := by decide
theorem test_decode_srli : decode 0x01F0D193#32 = .ok (.srli 3 1 0x0000001F#32) := by decide
theorem test_decode_srai : decode 0x41F0D193#32 = .ok (.srai 3 1 0x0000041F#32) := by decide
theorem test_decode_lui : decode 0xABCDE2B7#32 = .ok (.lui 5 0xABCDE000#32) := by decide
theorem test_decode_auipc : decode 0x00001297#32 = .ok (.auipc 5 0x00001000#32) := by decide
theorem test_decode_lb : decode 0xFFC10283#32 = .ok (.lb 5 2 0xFFFFFFFC#32) := by decide
theorem test_decode_lh : decode 0xFFC11283#32 = .ok (.lh 5 2 0xFFFFFFFC#32) := by decide
theorem test_decode_lw : decode 0xFFC12283#32 = .ok (.lw 5 2 0xFFFFFFFC#32) := by decide
theorem test_decode_lbu : decode 0xFFC14283#32 = .ok (.lbu 5 2 0xFFFFFFFC#32) := by decide
theorem test_decode_lhu : decode 0xFFC15283#32 = .ok (.lhu 5 2 0xFFFFFFFC#32) := by decide
theorem test_decode_sb : decode 0xFE510E23#32 = .ok (.sb 2 5 0xFFFFFFFC#32) := by decide
theorem test_decode_sh : decode 0xFE511E23#32 = .ok (.sh 2 5 0xFFFFFFFC#32) := by decide
theorem test_decode_sw : decode 0xFE512E23#32 = .ok (.sw 2 5 0xFFFFFFFC#32) := by decide
theorem test_decode_beq : decode 0xFE208CE3#32 = .ok (.beq 1 2 0xFFFFFFF8#32) := by decide
theorem test_decode_bne : decode 0xFE209CE3#32 = .ok (.bne 1 2 0xFFFFFFF8#32) := by decide
theorem test_decode_blt : decode 0xFE20CCE3#32 = .ok (.blt 1 2 0xFFFFFFF8#32) := by decide
theorem test_decode_bge : decode 0xFE20DCE3#32 = .ok (.bge 1 2 0xFFFFFFF8#32) := by decide
theorem test_decode_bltu : decode 0xFE20ECE3#32 = .ok (.bltu 1 2 0xFFFFFFF8#32) := by decide
theorem test_decode_bgeu : decode 0xFE20FCE3#32 = .ok (.bgeu 1 2 0xFFFFFFF8#32) := by decide
theorem test_decode_jalr : decode 0x00008067#32 = .ok (.jalr 0 1 0x00000000#32) := by decide
theorem test_decode_jal : decode 0x001000EF#32 = .ok (.jal 1 0x00000800#32) := by decide

theorem test_decode_rejects_mul : decode 0x022081B3#32 = .error (.regReg 1#7 0#3) := by decide
theorem test_decode_rejects_rori : decode 0x6000D193#32 = .error (.shiftImm 0b0110000#7 0b101#3) := by decide
theorem test_decode_rejects_ld : decode 0x00003003#32 = .error (.load 3#3) := by decide
theorem test_decode_rejects_sd : decode 0x00003023#32 = .error (.store 3#3) := by decide
theorem test_decode_rejects_branch_010 : decode 0x00002063#32 = .error (.branch 2#3) := by decide
theorem test_decode_rejects_jalr_001 : decode 0x00001067#32 = .error (.jalr 1#3) := by decide
theorem test_decode_rejects_ecall : decode 0x00000073#32 = .error (.opcode 0x73#7) := by decide

/-- The immediate bit groups of the B and J formats, one bit each (section 2.1). -/
theorem test_decode_bit_eleven :
    decode 0x002080E3#32 = .ok (.beq 1 2 0x00000800#32) ∧ decode 0x001000EF#32 = .ok (.jal 1 0x00000800#32)
    ∧ decode 0x80208063#32 = .ok (.beq 1 2 0xFFFFF000#32) ∧ decode 0x800000EF#32 = .ok (.jal 1 0xFFF00000#32) := by
  decide

theorem test_encode_sample :
    encode (.srai 3 1 0x0000041F#32) = 0x41F0D193#32 ∧ encode (.sh 2 5 0xFFFFFFFC#32) = 0xFE511E23#32
    ∧ encode (.beq 1 2 0x00000FFE#32) = 0x7E208FE3#32 ∧ encode (.jal 1 0x000FFFFE#32) = 0x7FFFF0EF#32
    ∧ encode (.lui 5 0xABCDE000#32) = 0xABCDE2B7#32 := by decide

/-! ## One instruction alone (sections 2.3 to 2.9) -/

/-- x1, x2 and x5. -/
def regs (a b c : Word) : Vector Word 32 := ((State.reset.x.set 1 a).set 2 b).set 5 c

def demo (pc a b c : Word) : State := { State.reset with x := regs a b c, pc := pc }

/-- Section 2.6's 16 bytes. -/
def bytes16 : Memory :=
  [(0, 0x80#8), (1, 0xFF#8), (2, 0x7F#8), (4, 0x78#8), (5, 0x56#8), (6, 0x34#8), (7, 0x12#8)]
  ++ [(8, 0xFF#8), (9, 0xFF#8), (10, 0xFF#8), (11, 0xFF#8), (12, 1#8), (13, 2#8), (14, 3#8), (15, 4#8)]

def withMemory (s : State) (m : Memory) : State := { s with dmem := m, cfg := { s.cfg with dmemSize := 16 } }

/-- The meaning of the instruction a word decodes to. -/
def run (w : Word) (s : State) : State :=
  match (decodeInstr w).map fun i => exec i s with
  | some (.next t) => t
  | _ => s

theorem test_add_wraps : (run 0x002081B3#32 (demo 0 0xFFFFFFFF#32 1#32 0)).readReg 3 = 0#32 := by decide
theorem test_sub_borrows : (run 0x402081B3#32 (demo 0 0#32 1#32 0)).readReg 3 = 0xFFFFFFFF#32 := by decide
theorem test_sll_masks_amount : (run 0x002091B3#32 (demo 0 0x12345678#32 0x24#32 0)).readReg 3 = 0x23456780#32 := by decide
theorem test_slt_signed : (run 0x0020A1B3#32 (demo 0 0xFFFFFFFF#32 1#32 0)).readReg 3 = 1#32 := by decide
theorem test_sltu_unsigned : (run 0x0020B1B3#32 (demo 0 0xFFFFFFFF#32 1#32 0)).readReg 3 = 0#32 := by decide
theorem test_xor : (run 0x0020C1B3#32 (demo 0 0xFF00FF00#32 0x0FF00FF0#32 0)).readReg 3 = 0xF0F0F0F0#32 := by decide
theorem test_srl_fills_zero : (run 0x0020D1B3#32 (demo 0 0x80000000#32 0x21#32 0)).readReg 3 = 0x40000000#32 := by decide
theorem test_sra_fills_sign : (run 0x4020D1B3#32 (demo 0 0x80000000#32 0x21#32 0)).readReg 3 = 0xC0000000#32 := by decide
theorem test_or : (run 0x0020E1B3#32 (demo 0 0xFF00FF00#32 0x0FF00FF0#32 0)).readReg 3 = 0xFFF0FFF0#32 := by decide
theorem test_and : (run 0x0020F1B3#32 (demo 0 0xFF00FF00#32 0x0FF00FF0#32 0)).readReg 3 = 0x0F000F00#32 := by decide
theorem test_addi_negative : (run 0xFFF08193#32 (demo 0 0#32 0#32 0)).readReg 3 = 0xFFFFFFFF#32 := by decide
theorem test_slti_signed : (run 0x0050A193#32 (demo 0 0xFFFFFFFF#32 0#32 0)).readReg 3 = 1#32 := by decide
theorem test_sltiu_sign_extends_then_unsigned : (run 0x8000B193#32 (demo 0 0xFFFFF7FF#32 0#32 0)).readReg 3 = 1#32 := by decide
theorem test_xori_not : (run 0xFFF0C193#32 (demo 0 0x12345678#32 0#32 0)).readReg 3 = 0xEDCBA987#32 := by decide
theorem test_ori_negative : (run 0x8000E193#32 (demo 0 0x7FF#32 0#32 0)).readReg 3 = 0xFFFFFFFF#32 := by decide
theorem test_andi : (run 0x0FF0F193#32 (demo 0 0x12345678#32 0#32 0)).readReg 3 = 0x78#32 := by decide
theorem test_slli : (run 0x00409193#32 (demo 0 0x12345678#32 0#32 0)).readReg 3 = 0x23456780#32 := by decide
theorem test_srli : (run 0x0040D193#32 (demo 0 0x80000000#32 0#32 0)).readReg 3 = 0x08000000#32 := by decide
theorem test_srai_amount_is_low_five_bits : (run 0x4040D193#32 (demo 0 0x80000000#32 0#32 0)).readReg 3 = 0xF8000000#32 := by decide

theorem test_lui : (run 0xABCDE2B7#32 (demo 0 0 0 0)).readReg 5 = 0xABCDE000#32 := by decide
theorem test_auipc_adds_own_address : (run 0xFFFFF297#32 (demo 8 0 0 0)).readReg 5 = 0xFFFFF008#32 := by decide
theorem test_write_to_zero_dropped : (run 0x12345037#32 (demo 0 0 0 0)).readReg 0 = 0#32 := by decide

theorem test_lb_sign : (run 0x00010283#32 (withMemory (demo 0 0 0#32 0xDEADBEEF#32) bytes16)).readReg 5 = 0xFFFFFF80#32 := by
  decide
theorem test_lbu_zero : (run 0x00014283#32 (withMemory (demo 0 0 0#32 0xDEADBEEF#32) bytes16)).readReg 5 = 0x80#32 := by
  decide
theorem test_lh_misaligned : (run 0x00111283#32 (withMemory (demo 0 0 0#32 0xDEADBEEF#32) bytes16)).readReg 5 = 0x7FFF#32 := by
  decide
theorem test_lhu : (run 0x00015283#32 (withMemory (demo 0 0 0#32 0xDEADBEEF#32) bytes16)).readReg 5 = 0xFF80#32 := by
  decide
theorem test_lw_little_endian : (run 0x00412283#32 (withMemory (demo 0 0 0#32 0xDEADBEEF#32) bytes16)).readReg 5 = 0x12345678#32 := by
  decide
theorem test_lw_address_wraps : (run 0x00312283#32 (withMemory (demo 0 0 0xFFFFFFFF#32 0xDEADBEEF#32) bytes16)).readReg 5
    = 0x5678007F#32 := by decide
theorem test_lw_partly_out_of_bounds : (run 0x00D12283#32 (withMemory (demo 0 0 0#32 0xDEADBEEF#32) bytes16)).readReg 5 = 0#32 := by
  decide

theorem test_sb : (run 0x005101A3#32 (withMemory (demo 0 0 0#32 0x12345678#32) [])).dmem = [(3, 0x78#8)] := by decide
theorem test_sh_misaligned : (run 0x005111A3#32 (withMemory (demo 0 0 0#32 0x12345678#32) [])).dmem = [(3, 0x78#8), (4, 0x56#8)] := by decide
theorem test_sw_little_endian : (run 0x00512623#32 (withMemory (demo 0 0 0#32 0x12345678#32) [])).dmem =
    [(12, 0x78#8), (13, 0x56#8), (14, 0x34#8), (15, 0x12#8)] := by decide
theorem test_sw_partly_out_of_bounds : (run 0x005126A3#32 (withMemory (demo 0 0 0#32 0x12345678#32) [])).dmem = [] := by decide
theorem test_sb_address_wraps : (run 0x005100A3#32 (withMemory (demo 0 0 0xFFFFFFFF#32 0x12345678#32) [])).dmem = [(0, 0x78#8)] := by decide

theorem test_store_of_zero_unlists : (run 0x00510023#32 (withMemory (demo 0 0 0 0) [(0, 7#8), (1, 9#8)])).dmem = [(1, 9#8)] := by
  decide

theorem test_beq : (run 0x00208863#32 (demo 8 5#32 5#32 0)).pc = 0x18#32 := by decide
theorem test_bne : (run 0x00209863#32 (demo 8 5#32 5#32 0)).pc = 0xC#32 := by decide
theorem test_blt_signed : (run 0x0020C863#32 (demo 8 0xFFFFFFFF#32 1#32 0)).pc = 0x18#32 := by decide
theorem test_bge_signed : (run 0x0020D863#32 (demo 8 0xFFFFFFFF#32 1#32 0)).pc = 0xC#32 := by decide
theorem test_bltu_unsigned : (run 0x0020E863#32 (demo 8 0xFFFFFFFF#32 1#32 0)).pc = 0xC#32 := by decide
theorem test_bgeu_unsigned : (run 0x0020F863#32 (demo 8 0xFFFFFFFF#32 1#32 0)).pc = 0x18#32 := by decide
theorem test_branch_wraps : (run 0xFE000EE3#32 (demo 0 0 0 0)).pc = 0xFFFFFFFC#32 := by decide

theorem test_jal : (run 0xFF9FF0EF#32 (demo 8 0 0 0)).readReg 1 = 0xC#32 ∧ (run 0xFF9FF0EF#32 (demo 8 0 0 0)).pc = 0#32 := by
  decide
theorem test_jalr_same_register :
    (run 0x000080E7#32 (demo 8 0x30 0 0)).readReg 1 = 0xC#32 ∧ (run 0x000080E7#32 (demo 8 0x30 0 0)).pc = 0x30#32 := by decide
theorem test_jalr_clears_bit_zero : (run 0x003280E7#32 (demo 4 0 0 0x20)).pc = 0x22#32 := by decide
theorem test_alu_flags : aluFlags 0#32 = { zero := true, negative := false } ∧ (aluFlags 0x80000000#32).negative = true := by
  decide

/-! ## The host's two questions -/

theorem test_decodeTableWord : decodeTableWord 32 0x402081B3 = some (.sub 3 1 2) ∧ decodeTableWord 32 0 = none := by decide

/-- The next step fetches the placed word, and completing the pipeline runs it. -/
theorem test_withFetchWord :
    (tick (State.reset.withFetchWord 32 0x00108093)).ifid = some { pc := 0, raw := 0x00108093#32 }
    ∧ (complete (tick (State.reset.withFetchWord 32 0x00108093))).readReg 1 = 1#32 := by decide

/-! ## Pipeline states for the witnesses -/

/-- ID/EX, EX/MEM and MEM/WB entries of a word, with 0 in every operand. -/
def idexOf (w : Word) : IdEx := decodeEntry { pc := 0, raw := w } State.reset.x
def exmemOf (w : Word) : ExMem := (idexOf w).execute 0 0
def memwbOf (w : Word) : MemWb := (exmemOf w).access 256 []

/-- A state with these words in the image, IF/ID, ID/EX, EX/MEM and MEM/WB. -/
def flight (fwd : Bool) (imem : List Word) (d e m w : Option Word) : State :=
  { State.reset with
    ifid := d.map fun v => { pc := 0, raw := v }
    idex := e.map idexOf
    exmem := m.map exmemOf
    memwb := w.map memwbOf
    cfg := { RunConfig.default with forwarding := fwd, imem := imem } }

def program (fwd : Bool) (imem : List Word) (mem : Memory) : RunConfig :=
  { RunConfig.default with forwarding := fwd, imem := imem, dmemInit := mem }

/-! `LW x1,0(x0)`, `ADDI x1,x0,1`, `ADD x2,x1,x1`, `BEQ x1,x0,8`, `JALR x0,x1,0`, `SW x5,0(x2)`. -/

def lwX1 : Word := 0x00002083#32
def addiX1 : Word := 0x00100093#32
def addX2 : Word := 0x00108133#32
def beqX1 : Word := 0x00008463#32
def jalrX1 : Word := 0x00008067#32
def swX5 : Word := 0x00512023#32

theorem test_words_of_the_witnesses :
    decode lwX1 = .ok (.lw 1 0 0#32) ∧ decode addiX1 = .ok (.addi 1 0 1#32) ∧ decode addX2 = .ok (.add 2 1 1)
    ∧ decode beqX1 = .ok (.beq 1 0 8#32) ∧ decode jalrX1 = .ok (.jalr 0 1 0#32) ∧ decode swX5 = .ok (.sw 2 5 0#32) := by
  decide

/-! Scenarios H1, H3 and H5 of section 3, the cycle in which the hazard is met. -/

theorem test_forwarded_result_is_used :
    exOperands (idexOf addX2) (flight true [] none (some addX2) (some addiX1) none) = (1#32, 1#32) := by decide
theorem test_branch_after_alu_waits : decodeStalled (flight true [] (some beqX1) (some addiX1) none none) = true := by decide
theorem test_fetch_stall_on_load : fetchStalled (flight true [jalrX1] none (some lwX1) none none) = true := by decide
theorem test_taken_branch_redirects : decodeRedirect (flight true [] (some beqX1) none none none) = some 8#32 := by decide
/-- `JAL x0,0` is in Execute and fetched again (H16, cycle 3): both labels hold, and the diagram's is the oldest stage's. -/
theorem test_stage_labels_of_a_jump_to_itself :
    stageLabels (flight true [0x0000006F#32] none (some 0x0000006F#32) none none) 0 = [.execute, .fetch]
    ∧ stageLabel (flight true [0x0000006F#32] none (some 0x0000006F#32) none none) 0 = .execute := by decide
theorem test_stage_label : stageLabel (flight true [] none none none (some lwX1)) 0 = .writeback := by decide

/-! ## Witnesses: for every statement with hypotheses, inputs that meet them, clause by clause -/

theorem witness_DecodeOfEncodeIsTheInstruction :
    (Instr.bgeu 31 0 0xFFFFF000#32).wf = true ∧ (Instr.jal 0 0x000FFFFE#32).wf = true ∧ (Instr.srai 3 1 0x41F#32).wf = true := by
  decide

theorem witness_EncodeOfDecodeIsTheWord : decode 0x80208063#32 = .ok (.beq 1 2 0xFFFFF000#32) := by decide

theorem witness_DefinedWordsAreTheOpcodeTableRows :
    decode 0x41F0D193#32 = .ok (.srai 3 1 0x41F#32)
    ∧ ("SRAI", 0x40005013#32, 0xFE00707F#32) ∈ opcodeRows ∧ 0x41F0D193#32 &&& 0xFE00707F#32 = 0x40005013#32 := by decide

theorem witness_RegisterFieldsOfADecodedWord :
    decode 0x01DF7FB3#32 = .ok (.and 31 30 29) ∧ (Instr.and 31 30 29).rd = some 31 ∧ (Instr.and 31 30 29).rs1 = some 30
    ∧ (Instr.and 31 30 29).rs2 = some 29 := by decide

/-- One word of each format, at an end of its immediate's range. -/
theorem witness_ImmediateOfADecodedWord :
    decode 0x002081B3#32 = .ok (.add 3 1 2) ∧ decode 0x80008193#32 = .ok (.addi 3 1 0xFFFFF800#32)
    ∧ decode 0x80512023#32 = .ok (.sw 2 5 0xFFFFF800#32) ∧ decode 0x80208063#32 = .ok (.beq 1 2 0xFFFFF000#32)
    ∧ decode 0xFFFFF037#32 = .ok (.lui 0 0xFFFFF000#32) ∧ decode 0x800000EF#32 = .ok (.jal 1 0xFFF00000#32) := by decide

/-- The last word in bounds, and the first address at which a word is not. -/
theorem witness_StoresComplete :
    (withMemory State.reset bytes16).dmem.wf = true
    ∧ (effectiveAddress 0#32 12#32).toNat + 4 ≤ (withMemory State.reset bytes16).cfg.dmemSize
    ∧ ¬ (effectiveAddress 0#32 13#32).toNat + 4 ≤ (withMemory State.reset bytes16).cfg.dmemSize := by decide

theorem witness_InvalidOnlyAdvancesThePc :
    decode (fetchedWord (flight true [0x00000073#32] none none none none)) = .error (.opcode 0x73#7)
    ∧ State.reset.cfg.imem.length ≤ State.reset.pc.toNat / 4 := by decide

theorem witness_InstructionChangesOnlyItsDestination :
    exec (.add 3 1 2) State.reset = .next (run 0x002081B3#32 State.reset) ∧ (Instr.add 3 1 2).rd ≠ some 4
    ∧ mnemonic (.add 3 1 2) ∉ storeNames
    ∧ exec (.sh 2 5 0#32) State.reset = .next (run 0x00511023#32 State.reset)
    ∧ 0 + 2 ≤ (effectiveAddress (State.reset.readReg 2) 2#32).toNat := ⟨rfl, by decide, by decide, rfl, by decide⟩

/-- Two states that differ in a register SUB does not read, in the retired count and in the pipeline. -/
theorem witness_InstructionReadsOnlyItsSources :
    let s₁ := demo 8 5 7 1
    let s₂ := { demo 8 5 7 2 with retired := 3, idex := some (idexOf lwX1) }
    s₁.pc = s₂.pc ∧ s₁.dmem = s₂.dmem ∧ s₁.cfg.dmemSize = s₂.cfg.dmemSize
    ∧ (∀ r ∈ sources { raw := 0x402081B3#32, instr := some (.sub 3 1 2) }, s₁.readReg r = s₂.readReg r)
    ∧ exec (.sub 3 1 2) s₁ = .next (run 0x402081B3#32 s₁) ∧ exec (.sub 3 1 2) s₂ = .next (run 0x402081B3#32 s₂)
    ∧ s₁ ≠ s₂ := ⟨rfl, rfl, rfl, by decide, rfl, rfl, by decide⟩

theorem witness_RegisterZeroIsHardwired : step State.reset = .next (tick State.reset) := rfl

theorem witness_MemoryReadsBackWhatWasWritten :
    Memory.wf bytes16 = true ∧ inBounds 16 12#32 .word = true ∧ inBounds 16 13#32 .word = false
    ∧ inBounds 16 0xFFFFFFFF#32 .byte = false := by decide

theorem witness_NarrowReadsSeeTheBytesOfAWord :
    Memory.wf bytes16 = true ∧ (12#32).toNat + 4 ≤ 16 ∧ 16 ≤ 2 ^ 31 := by decide

/-- R51's example, the word 0x12345678 at address 0. -/
theorem test_narrow_reads_of_a_word :
    let m := memWrite 16 [] 0#32 .word 0x12345678#32
    memRead 16 m 0#32 .byte = 0x78#32 ∧ memRead 16 m 1#32 .byte = 0x56#32 ∧ memRead 16 m 2#32 .half = 0x1234#32 := by decide

theorem witness_FetchReadsTheImageByWord : (7#32).toNat / 4 < [lwX1, addX2].length ∧ [lwX1, addX2].length ≤ (8#32).toNat / 4 := by
  decide

theorem witness_ControlSignalsByClass :
    mnemonic (.and 1 2 3) ∈ regRegNames ∧ mnemonic (.srai 1 2 0) ∈ regImmNames ∧ mnemonic (.lhu 1 2 0) ∈ loadNames
    ∧ mnemonic (.jalr 1 2 0) = "JALR" ∧ mnemonic (.sb 1 2 0) ∈ storeNames ∧ mnemonic (.bgeu 1 2 0) ∈ branchNames
    ∧ mnemonic (.lui 1 0) = "LUI" ∧ mnemonic (.auipc 1 0) = "AUIPC" ∧ mnemonic (.jal 1 0) = "JAL" := by decide

theorem witness_ControlTableInvariants :
    (controlSignals (snapshot lwX1)).memoryRead = true ∧ (controlSignals (snapshot swX5)).memoryWrite = true
    ∧ (controlSignals (snapshot beqX1)).isBranch = true ∧ (controlSignals (snapshot addX2)).registerWrite = true := by decide

theorem witness_SourcesByFormat :
    (snapshot 0x00000073#32).instr = none ∧ (snapshot 0x00108137#32).fmt = .u ∧ (snapshot 0x001000EF#32).fmt = .j := by decide

theorem witness_ForwardingPriority :
    let s := flight true [] none none (some addiX1) (some lwX1)
    let s' := flight true [] none none (some addX2) (some lwX1)
    s.cfg.forwarding = true ∧ (flight false [] none none none none).cfg.forwarding = false
    ∧ (1 : Reg) ≠ 0 ∧ (∃ m ∈ s.exmem, produces m.instr m.ctrl 1 = true)
    ∧ s'.exmemProduces 1 = false ∧ (∃ w ∈ s'.memwb, produces w.instr w.ctrl 1 = true)
    ∧ s'.exmemProduces 31 = false ∧ s'.memwbProduces 31 = false := by
  refine ⟨rfl, rfl, by decide, ⟨exmemOf addiX1, rfl, by decide⟩, by decide, ⟨memwbOf lwX1, rfl, by decide⟩, by decide, by decide⟩

theorem witness_NoHazardSourceMeansNoStall :
    hazardSources (snapshot 0x00108137#32) = [] ∧ hazardSources (snapshot lwX1) = [] ∧ (snapshot 0x00108137#32).fmt = .u
    ∧ (snapshot 0x001000EF#32).fmt = .j ∧ (snapshot 0#32).fmt = .none := by decide

/-- A consumer in IF/ID and the producer of x1 in ID/EX: a load and an ALU consumer, an ALU producer and a branch, a load
and a JALR, and the first pair without forwarding. -/
theorem witness_StallCyclesOfAdjacentDependence :
    (1 : Reg) ∈ hazardSources (snapshot addX2) ∧ (1 : Reg) ∈ hazardSources (snapshot beqX1)
    ∧ (1 : Reg) ∈ hazardSources (snapshot jalrX1)
    ∧ produces (idexOf lwX1).instr (idexOf lwX1).ctrl 1 = true ∧ produces (idexOf addiX1).instr (idexOf addiX1).ctrl 1 = true
    ∧ (idexOf lwX1).ctrl.memoryRead = true ∧ (idexOf addiX1).ctrl.memoryRead = false
    ∧ isControlFlow (snapshot addX2) = false ∧ isControlFlow (snapshot beqX1) = true ∧ isControlFlow (snapshot jalrX1) = true
    ∧ (flight true [] (some addX2) (some lwX1) none none).ifid = some { pc := 0, raw := addX2 }
    ∧ (flight true [] (some addX2) (some lwX1) none none).idex = some (idexOf lwX1)
    ∧ (flight true [] (some addX2) (some lwX1) none none).cfg.forwarding = true
    ∧ (flight false [] (some addX2) (some lwX1) none none).cfg.forwarding = false := by decide

/-- A redirect; a decode stall; a fetch stall; none of them. -/
theorem witness_ProgramCounterPriority :
    decodeRedirect (flight true [] (some beqX1) none none none) = some 8#32
    ∧ decodeRedirect (flight true [] (some addX2) (some lwX1) none none) = none
    ∧ decodeStalled (flight true [] (some addX2) (some lwX1) none none) = true
    ∧ (let s := flight true [jalrX1] none (some lwX1) none none
      decodeRedirect s = none ∧ decodeStalled s = false ∧ fetchStall (snapshot (ifetch s.cfg.imem s.pc)) s = true)
    ∧ decodeRedirect State.reset = none ∧ decodeStalled State.reset = false
    ∧ fetchStall (snapshot (ifetch State.reset.cfg.imem State.reset.pc)) State.reset = false := by decide

theorem witness_RedirectsOfDecode :
    (flight true [] (some beqX1) none none none).ifid = some { pc := 0, raw := beqX1 }
    ∧ decode beqX1 = .ok (.beq 1 0 8#32)
    ∧ decodeStalled (flight true [] (some beqX1) none none none) = false
    ∧ decodeStalled (flight true [] (some beqX1) (some addiX1) none none) = true
    ∧ State.reset.ifid = none ∧ (flight true [] (some 0x00000073#32) none none none).ifid = some { pc := 0, raw := 0x00000073#32 }
    ∧ decode 0x00000073#32 = .error (.opcode 0x73#7) := by decide

theorem witness_WritebackCommitsOneRegister :
    (flight true [] none none none (some lwX1)).memwb = some (memwbOf lwX1) ∧ (memwbOf lwX1).ctrl.registerWrite = true
    ∧ (memwbOf lwX1).instr.rd = some 1 ∧ (memwbOf swX5).ctrl.registerWrite = false := by decide

theorem witness_RetiredCountsDefinedInstructions :
    (memwbOf lwX1).instr.instr ≠ none ∧ (memwbOf 0#32).instr.instr = none := by decide

theorem witness_CycleCountsTicks : exec (.lui 1 0) State.reset = .next (run 0x000000B7#32 State.reset) := rfl

theorem witness_OnlyTheStoreInMemoryChangesMemory :
    (flight true [] none none (some swX5) none).dmem.wf = true
    ∧ (flight true [] none none (some swX5) none).exmem = some (exmemOf swX5) ∧ (exmemOf swX5).ctrl.memoryWrite = true
    ∧ (exmemOf lwX1).ctrl.memoryWrite = false := by decide

theorem witness_MemoryStageFillsMemwb :
    State.reset.exmem = none ∧ (flight true [] none none (some lwX1) none).exmem = some (exmemOf lwX1)
    ∧ (exmemOf lwX1).ctrl.memoryRead = true ∧ (exmemOf swX5).ctrl.memoryRead = false := by decide

theorem witness_ExecuteStageFillsExmem :
    State.reset.idex = none ∧ (flight true [] none (some addX2) none none).idex = some (idexOf addX2) := by decide

theorem witness_DecodeReadsAfterWriteback :
    (flight true [] (some swX5) none none (some lwX1)).ifid = some { pc := 0, raw := swX5 }
    ∧ decodeStalled (flight true [] (some swX5) none none (some lwX1)) = false ∧ (snapshot swX5).rs1 = some 2
    ∧ (snapshot swX5).rs2 = some 5
    ∧ State.reset.ifid = none ∧ decodeStalled (flight true [] (some addX2) (some lwX1) none none) = true := by decide

/-- ECALL's word in all four pipeline registers. -/
theorem witness_InvalidFlowsThroughAsANoOp :
    let w := 0x00000073#32
    let s := flight true [] (some w) (some w) (some w) (some w)
    decode w = .error (.opcode 0x73#7) ∧ s.ifid = some { pc := 0, raw := w } ∧ s.idex = some (idexOf w)
    ∧ s.exmem = some (exmemOf w) ∧ s.memwb = some (memwbOf w) ∧ (idexOf w).instr = snapshot w ∧ (idexOf w).ctrl = Ctrl.off := by
  decide

theorem witness_ThreeTicksFromDecodeToRetirement :
    (flight true [] (some addX2) (some lwX1) (some swX5) none).idex = some (idexOf lwX1) := by decide

theorem witness_DecodeStallsAreBounded :
    let s := flight false [] (some addX2) (some lwX1) none none
    let s' := flight true [] (some jalrX1) (some lwX1) none none
    decodeStalled s = true ∧ decodeStalled (ticks 1 s) = true ∧ decodeStalled (ticks 2 s) = true
    ∧ s'.cfg.forwarding = true ∧ decodeStalled s' = true ∧ decodeStalled (ticks 1 s') = true := by decide

/-- A JALR is fetched while loads of its register are in every stage. -/
theorem witness_FetchStallsAreBounded :
    let s := flight true [jalrX1] (some lwX1) (some lwX1) (some lwX1) (some lwX1)
    ∀ k < 4, fetchStalled (ticks k s) = true ∧ decodeRedirect (ticks k s) = none := by decide

theorem witness_StepRunsThePlacedInstruction :
    decode addX2 = .ok (.add 2 1 1)
    ∧ exec (.add 2 1 1) ((demo 8 5 0 0).withFetchWord 32 addX2.toNat)
      = .next (run addX2 ((demo 8 5 0 0).withFetchWord 32 addX2.toNat)) := ⟨by decide, rfl⟩

theorem witness_ConsistentAfterReset :
    (program true [lwX1, addX2] [(0, 7#8)]).accepted = true
    ∧ ({ RunConfig.default with dmemSize := 2 ^ 31 }).accepted = true := by decide

/-- `LW x1,0(x0); ADD x2,x1,x1` over the value 7 (program P2), at reset and before the cycle of its load-use stall. -/
def p2 : RunConfig := program true [lwX1, addX2] [(0, 7#8)]

def loadUseState : State :=
  { State.resetWith p2 with
    pc := 8#32
    cycle := 2
    ifid := some { pc := 4#32, raw := addX2 }
    idex := some (decodeEntry { pc := 0#32, raw := lwX1 } State.reset.x) }

theorem test_loadUseState_is_reached : ticks 2 (State.resetWith p2) = loadUseState := by decide

theorem resetWith_consistent (cfg : RunConfig) (h : cfg.accepted = true) (hm : cfg.dmemInit.wf = true)
    (hw : cfg.dmemInit.within cfg.dmemSize = true) : Consistent (State.resetWith cfg) := by
  refine ⟨h, rfl, ⟨hm, hw⟩, ?_, ?_, ?_, ?_, ?_, ?_⟩
  all_goals intro _ h; cases h

theorem loadUseState_consistent : Consistent loadUseState := by
  refine ⟨by decide, by decide, by decide, ?_, ?_, ?_, ?_, ?_, ?_⟩
  · intro d h; cases h; decide
  · intro e h; cases h; exact ⟨⟨by decide, by decide⟩, by decide⟩
  · intro m h; cases h
  · intro w h; cases h
  · intro e h; cases h; decide
  · intro e h; cases h; decide

/-- `BEQ x1,x0,8` in IF/ID, one tick after reset. -/
def branchState : State :=
  { State.resetWith (program true [beqX1] []) with pc := 4#32, cycle := 1, ifid := some { pc := 0#32, raw := beqX1 } }

theorem test_branchState_is_reached : ticks 1 (State.resetWith (program true [beqX1] [])) = branchState := by decide

theorem branchState_consistent : Consistent branchState := by
  refine ⟨by decide, by decide, by decide, ?_, ?_, ?_, ?_, ?_, ?_⟩
  · intro d h; cases h; decide
  all_goals intro _ h; cases h

theorem witness_StepKeepsConsistent :
    Consistent loadUseState ∧ step loadUseState = .next (tick loadUseState) := ⟨loadUseState_consistent, rfl⟩

/-- An instruction in ID/EX with a source register, and a branch that does not stall, both in consistent states. -/
theorem witness_OperandsAreThoseOfOlderInstructions :
    Consistent loadUseState ∧ (decodeEntry { pc := 0#32, raw := lwX1 } State.reset.x).instr.rs1 = some 0
    ∧ Consistent branchState ∧ decodeStalled branchState = false
    ∧ branchState.ifid = some { pc := 0#32, raw := beqX1 } ∧ isControlFlow (snapshot beqX1) = true
    ∧ (snapshot beqX1).rs1 = some 1 :=
  ⟨loadUseState_consistent, by decide, branchState_consistent, by decide, rfl, by decide, by decide⟩

/-- A kept fetch of a defined word, one of an INVALID word, and a stall. -/
theorem witness_StepRunsTheNextInstruction :
    (Consistent (State.resetWith p2) ∧ fetchKept (State.resetWith p2) = true
      ∧ decode (ifetch p2.imem 0) = .ok (.lw 1 0 0#32)
      ∧ exec (.lw 1 0 0#32) (complete (State.resetWith p2)) = .next (run lwX1 (complete (State.resetWith p2))))
    ∧ (Consistent State.reset ∧ fetchKept State.reset = true
      ∧ decode (ifetch State.reset.cfg.imem State.reset.pc) = .error (.opcode 0#7))
    ∧ Consistent loadUseState ∧ fetchKept loadUseState = false :=
  ⟨⟨resetWith_consistent _ (by decide) (by decide) (by decide), by decide, by decide, rfl⟩,
    ⟨resetWith_consistent _ (by decide) (by decide) (by decide), by decide, by decide⟩, loadUseState_consistent, by decide⟩

theorem witness_PipelineCommitsTheReferenceResults :
    p2.accepted = true ∧ (ticks 2 (State.resetWith p2)).memwb = none ∧ (ticks 4 (State.resetWith p2)).memwb ≠ none := by
  decide

/-- Section 5, T3 and T4: two instructions retired in cycle 7 with forwarding, in cycle 9 without. -/
theorem witness_ForwardingDoesNotChangeResults :
    p2.accepted = true
    ∧ (let s₁ := ticks 7 (State.resetWith { p2 with forwarding := true })
      let s₂ := ticks 9 (State.resetWith { p2 with forwarding := false })
      s₁.retired = s₂.retired ∧ s₁.retired = 2 ∧ (s₁.memwb.all fun w => !w.ctrl.memoryWrite) = true
      ∧ (s₂.memwb.all fun w => !w.ctrl.memoryWrite) = true) := by decide

theorem witness_ResetEdgeAndBoot :
    p2.accepted = true ∧ 2 ^ 31 < ({ p2 with dmemSize := 2 ^ 31 + 1 }).dmemSize
    ∧ p2.dmemSize ≤ 2 ^ 31 ∧ 2 ^ 30 < ({ p2 with imem := List.replicate (2 ^ 30 + 1) 0#32 }).imem.length
    ∧ p2.imem.length ≤ 2 ^ 30 ∧ Memory.wf [(0, 0#8)] = false ∧ Memory.within [(256, 1#8)] 256 = false := by
  refine ⟨by decide, by decide, by decide, ?_, by decide, by decide, by decide⟩
  rw [List.length_replicate]
  decide

theorem witness_BlockOutputsDriveTheTick :
    (flight true [] none none (some lwX1) none).exmem = some (exmemOf lwX1)
    ∧ (dmemRequest (flight true [] none none (some lwX1) none)).readEnable = true ∧ fetchKept State.reset = true := by decide

end Sys2Proof.Tests
end

section
/-! PROOFS. Register 0 (R22): what it reads as, what leaves its slot alone, and the units that leave it out. -/

namespace Sys2Proof.Machine

/-- A step is one tick, so it has one outcome (R186). -/
theorem step_eq_next_iff (s t : State) : step s = .next t ↔ t = tick s := by
  simp [step, eq_comm]

/-! ## The register file -/

@[simp] theorem State.readReg_zero (s : State) : s.readReg 0 = 0#32 := regRead_zero s.x

@[simp] theorem MemWb.commit_slot_zero (w : MemWb) (x : Vector Word 32) : (w.commit x)[0] = x[0] := by
  unfold MemWb.commit
  split
  · split
    · exact regWrite_slot_zero ..
    · rfl
  · rfl

@[simp] theorem writebackRegs_slot_zero (s : State) : (writebackRegs s)[0] = s.x[0] := by
  unfold writebackRegs
  split
  · exact MemWb.commit_slot_zero ..
  · rfl

/-! ## The hazard-detection and forwarding units -/

@[simp] theorem produces_zero (i : Snapshot) (c : Ctrl) : produces i c 0 = false := by simp [produces]

theorem zero_notMem_hazardSources (i : Snapshot) : 0 ∉ hazardSources i := fun h =>
  ((mem_hazardSources i 0).1 h).2 rfl

@[simp] theorem forwardValue_zero (v : Word) (s : State) : forwardValue (some 0) v s = v := by simp [forwardValue]

/-- Settles O18: Writeback alone writes the register file in a tick, and only through `regWrite`. -/
theorem registerZeroIsHardwired : Obligations.RegisterZeroIsHardwired := by
  refine ⟨State.readReg_zero, regWrite_zero, ?_, fun i c => ⟨produces_zero i c, zero_notMem_hazardSources i⟩,
    forwardValue_zero⟩
  intro s t h
  obtain rfl := (step_eq_next_iff s t).1 h
  exact ⟨writebackRegs_slot_zero s, State.readReg_zero _⟩

end Sys2Proof.Machine
end

section
/-! PROOFS. The control unit's Boolean signals (R122): they depend on the mnemonic alone, through the table's ten rows. -/

namespace Sys2Proof.Machine

open Sys2Proof.Claims

/-- R122's table by mnemonic: the signals set for its class, none for a name outside the 37. -/
def classSignals (name : String) : List String :=
  if name ∈ regRegNames then ["registerWrite"]
  else if name ∈ regImmNames ∨ name = "LUI" ∨ name = "AUIPC" then ["registerWrite", "aluSourceIsImmediate"]
  else if name ∈ loadNames then ["registerWrite", "memoryRead", "memoryToRegister", "aluSourceIsImmediate"]
  else if name ∈ storeNames then ["memoryWrite", "aluSourceIsImmediate"]
  else if name ∈ branchNames then ["isBranch"]
  else if name = "JAL" ∨ name = "JALR" then ["registerWrite", "isJump"]
  else []

/-- The 37 rows of R125 set what R122 lists for their class. -/
theorem signalsSet_controlRow (i : Instr) : signalsSet (controlRow i) = classSignals (mnemonic i) := by
  cases i <;> rfl

theorem signalsSet_controlSignals_some (raw : Word) (i : Instr) :
    signalsSet (controlSignals { raw := raw, instr := some i }) = classSignals (mnemonic i) :=
  signalsSet_controlRow i

theorem signalsSet_controlSignals_none {i : Snapshot} (h : i.instr = none) : signalsSet (controlSignals i) = [] := by
  rw [controlSignals_none h]
  rfl

/-! One row of the table per class of names; the classes are disjoint, so no earlier branch takes a name away. -/

theorem classSignals_regReg : ∀ name ∈ regRegNames, classSignals name = ["registerWrite"] := by decide

theorem classSignals_regImm :
    ∀ name ∈ regImmNames, classSignals name = ["registerWrite", "aluSourceIsImmediate"] := by decide

theorem classSignals_load : ∀ name ∈ loadNames,
    classSignals name = ["registerWrite", "memoryRead", "memoryToRegister", "aluSourceIsImmediate"] := by decide

theorem classSignals_store :
    ∀ name ∈ storeNames, classSignals name = ["memoryWrite", "aluSourceIsImmediate"] := by decide

theorem classSignals_branch : ∀ name ∈ branchNames, classSignals name = ["isBranch"] := by decide

/-- Settles O22: the mnemonic decides the signals, and each class of names is one row of R122's table. -/
theorem controlSignalsByClass : Obligations.ControlSignalsByClass := by
  refine ⟨fun i raw => ?_, fun _ => signalsSet_controlSignals_none rfl⟩
  rw [signalsSet_controlSignals_some]
  refine ⟨classSignals_regReg _, classSignals_regImm _, classSignals_load _, fun jalr => ?_, classSignals_store _,
    classSignals_branch _, fun lui => ?_, fun auipc => ?_, fun jal => ?_⟩
  · rw [jalr]; rfl
  · rw [lui]; rfl
  · rw [auipc]; rfl
  · rw [jal]; rfl

end Sys2Proof.Machine
end

section
/-! PROOFS. What the hazard-detection and forwarding units look at (R140, R142, R150): the sources by format, the
control-flow instructions by name, and the producer an operand comes from. -/

namespace Sys2Proof.Machine

open Sys2Proof.Claims

/-! ## Sources (R140) -/

/-- The three formats with an rs2 field read both fields, I reads its only one. -/
theorem mem_sources_iff_fmt (i : Snapshot) (r : Reg) :
    r ∈ sources i ↔ (i.fmt = .r ∨ i.fmt = .s ∨ i.fmt = .b) ∧ (i.rs1 = some r ∨ i.rs2 = some r)
      ∨ i.fmt = .i ∧ i.rs1 = some r := by
  unfold sources
  cases i.fmt <;> simp

theorem fmt_none_of_instr_none {i : Snapshot} (h : i.instr = none) : i.fmt = .none := by
  simp [Snapshot.fmt, h]

theorem sources_eq_nil_of_fmt {i : Snapshot} (h : i.fmt = .u ∨ i.fmt = .j ∨ i.fmt = .none) : sources i = [] := by
  unfold sources
  obtain h | h | h := h <;> rw [h]

theorem mem_hazardSources_iff_mem_sources (i : Snapshot) (r : Reg) : r ∈ hazardSources i ↔ r ∈ sources i ∧ r ≠ 0 := by
  simp [hazardSources]

/-- Settles O24: by the format, of which an INVALID snapshot has none. -/
theorem sourcesByFormat : Obligations.SourcesByFormat := fun i r =>
  ⟨mem_sources_iff_fmt i r, fun invalid => sources_eq_nil_of_fmt (.inr (.inr (fmt_none_of_instr_none invalid))),
    fun uj => sources_eq_nil_of_fmt (uj.imp_right .inl), mem_hazardSources_iff_mem_sources i r⟩

/-! ## Control flow (R142) -/

theorem controlRow_isBranch (j : Instr) : (controlRow j).isBranch = decide (mnemonic j ∈ branchNames) := by
  cases j <;> rfl

theorem controlRow_isJump (j : Instr) :
    (controlRow j).isJump = decide (mnemonic j = "JAL" ∨ mnemonic j = "JALR") := by
  cases j <;> rfl

theorem isControlFlow_iff_signals (i : Snapshot) :
    isControlFlow i = true ↔ (controlSignals i).isBranch = true ∨ (controlSignals i).isJump = true :=
  Bool.or_eq_true_iff ..

theorem isControlFlow_none {i : Snapshot} (h : i.instr = none) : isControlFlow i = false := by
  rw [isControlFlow, controlSignals_none h]
  rfl

theorem isControlFlow_some {i : Snapshot} {j : Instr} (h : i.instr = some j) :
    isControlFlow i = true ↔ mnemonic j ∈ branchNames ∨ mnemonic j = "JAL" ∨ mnemonic j = "JALR" := by
  have row : controlSignals i = controlRow j := by simp [controlSignals, h]
  simp [isControlFlow_iff_signals, row, controlRow_isBranch, controlRow_isJump]

/-- Settles O25: the table's row sets isBranch for the six branch names and isJump for JAL and JALR. -/
theorem controlFlowIsBranchOrJump : Obligations.ControlFlowIsBranchOrJump := by
  refine fun i => ⟨?_, isControlFlow_iff_signals i⟩
  rcases h : i.instr with _ | j
  · simp [isControlFlow_none h]
  · simp [isControlFlow_some h]

/-! ## Forwarding (R150, R151) -/

@[simp] theorem forwardValue_none (latched : Word) (s : State) : forwardValue none latched s = latched := rfl

/-- EX/MEM, the younger producer, decides whatever MEM/WB holds. -/
theorem forwardValue_of_exmem_produces {s : State} {m : ExMem} {r : Reg} (latched : Word) (hr : r ≠ 0)
    (hm : s.exmem = some m) (hp : produces m.instr m.ctrl r = true) :
    forwardValue (some r) latched s = m.aluResult := by
  simp [forwardValue, State.exmemProduces, hr, hm, hp]

theorem forwardValue_of_memwb_produces {s : State} {w : MemWb} {r : Reg} (latched : Word) (hr : r ≠ 0)
    (hx : s.exmemProduces r = false) (hw : s.memwb = some w) (hp : produces w.instr w.ctrl r = true) :
    forwardValue (some r) latched s = w.committed := by
  simp [forwardValue, State.memwbProduces, hr, hx, hw, hp]

theorem forwardValue_of_not_produced {s : State} {r : Reg} (latched : Word)
    (hx : s.exmemProduces r = false) (hw : s.memwbProduces r = false) :
    forwardValue (some r) latched s = latched := by
  simp [forwardValue, hx, hw]

theorem exOperands_of_forwarding (e : IdEx) {s : State} (h : s.cfg.forwarding = true) :
    exOperands e s = (forwardValue e.instr.rs1 e.rs1Value s, forwardValue e.instr.rs2 e.rs2Value s) :=
  if_pos h

theorem exOperands_of_no_forwarding (e : IdEx) {s : State} (h : s.cfg.forwarding = false) :
    exOperands e s = (e.rs1Value, e.rs2Value) :=
  if_neg (Bool.eq_false_iff.1 h)

/-- Settles O26: the policy decides whether to forward, and one lemma per source says where the value comes from. -/
theorem forwardingPriority : Obligations.ForwardingPriority :=
  ⟨fun _ e => ⟨exOperands_of_forwarding e, exOperands_of_no_forwarding e⟩,
    fun s _ latched hr =>
      ⟨fun _ hm hp => forwardValue_of_exmem_produces latched hr hm hp,
        fun hx _ hw hp => forwardValue_of_memwb_produces latched hr hx hw hp,
        forwardValue_of_not_produced latched,
        forwardValue_none latched s, forwardValue_zero latched s⟩⟩

end Sys2Proof.Machine
end

section
/-! PROOFS. The register file and the cycle counter (R172, R185): what a tick does to each, and what the meaning of one
instruction leaves alone. -/

namespace Sys2Proof.Machine

open Sys2Proof.Claims

/-! ## The register file after a tick (R172) -/

theorem produces_iff_of_rd {i : Snapshot} {c : Ctrl} {rd : Reg} (hc : c.registerWrite = true) (hrd : i.rd = some rd)
    (r : Reg) : produces i c r = true ↔ r = rd ∧ rd ≠ 0 := by
  simp only [produces, hc, hrd]
  grind

theorem produces_eq_false_of_no_write {i : Snapshot} {c : Ctrl} (h : c.registerWrite = false ∨ i.rd = none) (r : Reg) :
    produces i c r = false := by
  obtain hc | hrd := h
  · simp [produces, hc]
  · simp [produces, hrd]

theorem readReg_tick (s : State) (r : Reg) :
    (tick s).readReg r = if s.memwbProduces r then (s.memwb.map MemWb.committed).getD 0 else s.readReg r :=
  regRead_writebackRegs s r

theorem tick_registersWith {s : State} {w : MemWb} {rd : Reg} (hw : s.memwb = some w)
    (hc : w.ctrl.registerWrite = true) (hrd : w.instr.rd = some rd) : RegistersWith s (tick s) rd w.committed := by
  intro r
  simp [readReg_tick, State.memwbProduces, hw, produces_iff_of_rd hc hrd]

theorem tick_sameRegisters {s : State} (h : ∀ w ∈ s.memwb, w.ctrl.registerWrite = false ∨ w.instr.rd = none) :
    SameRegisters s (tick s) := by
  intro r
  have none_produces : s.memwbProduces r = false :=
    Option.any_eq_false _ _ |>.2 fun w hw => produces_eq_false_of_no_write (h w hw) r
  rw [readReg_tick, none_produces]
  rfl

/-- Settles O32: the entry in MEM/WB, the only writer, either writes its destination or is no producer. -/
theorem writebackCommitsOneRegister : Obligations.WritebackCommitsOneRegister := fun s =>
  ⟨tick s, rfl, fun _ _ hw hc hrd => tick_registersWith hw hc hrd, tick_sameRegisters⟩

/-! ## The cycle counter (R185) -/

/-- What the meaning of an instruction can be (R188): a write to its destination, a store, or a transfer of control. -/
theorem exec_next_cases {i : Instr} {s t : State} (h : exec i s = .next t) :
    (∃ rd v npc, i.rd = some rd ∧ t = s.writeAndRetire rd v npc)
    ∨ (∃ addr n v, i.rd = none ∧ t = s.store addr n v)
    ∨ (∃ cond imm, i.rd = none ∧ t = s.branchIf cond imm) := by
  cases i with
  | add | sub | sll | slt | sltu | xor | srl | sra | or | and
  | addi | slti | sltiu | xori | ori | andi | slli | srli | srai
  | lui | auipc | lb | lh | lw | lbu | lhu | jalr | jal =>
    cases h
    exact .inl ⟨_, _, _, rfl, rfl⟩
  | sb | sh | sw =>
    cases h
    exact .inr (.inl ⟨_, _, _, rfl, rfl⟩)
  | beq | bne | blt | bge | bltu | bgeu =>
    cases h
    exact .inr (.inr ⟨_, _, rfl, rfl⟩)

theorem exec_cycle {i : Instr} {s t : State} (h : exec i s = .next t) : t.cycle = s.cycle := by
  obtain ⟨rd, v, npc, -, rfl⟩ | ⟨addr, n, v, -, rfl⟩ | ⟨cond, imm, -, rfl⟩ := exec_next_cases h
  · exact State.writeAndRetire_cycle ..
  · exact State.store_cycle ..
  · exact State.branchIf_cycle ..

/-- Settles O34: the tick counts itself, and none of the updates an instruction is made of touches the counter. -/
theorem cycleCountsTicks : Obligations.CycleCountsTicks :=
  ⟨fun s => ⟨tick s, rfl, tick_cycle s⟩, fun _ _ _ => exec_cycle⟩

end Sys2Proof.Machine
end

section
/-! PROOFS. The encoding (R80 to R108): the decoder undoes the encoder, the encoder undoes the decoder, and what
follows for the opcode table, the register fields and the immediates of a decoded word. -/

namespace Sys2Proof

open Sys2Proof.Claims Sys2Proof.Laws

/-! ## Decoding an encoded instruction (R108) -/

/-- Settles O1: the encoder's opcode, funct3 and funct7 lead the decoder to the instruction's own row, where the
register fields and the immediate read back. -/
theorem decodeOfEncodeIsTheInstruction : Obligations.DecodeOfEncodeIsTheInstruction := by
  intro i wf
  cases i with
  | add | sub | sll | slt | sltu | xor | srl | sra | or | and => simp [encode, decode, decodeRegReg]
  | addi | slti | sltiu | xori | ori | andi => simp [encode, decode, decodeRegImm, immI_encodeI _ _ _ _ _ wf]
  | slli | srli =>
    obtain ⟨fits, selector⟩ := fitsImm12_of_fitsShift wf
    simp [encode, decode, decodeRegImm, immI_encodeI _ _ _ _ _ fits, selector]
  | srai =>
    obtain ⟨fits, selector⟩ := fitsImm12_of_fitsShiftArith wf
    simp [encode, decode, decodeRegImm, immI_encodeI _ _ _ _ _ fits, selector]
  | lui | auipc => simp [encode, decode, immU_encodeU _ _ _ wf]
  | lb | lh | lw | lbu | lhu => simp [encode, decode, decodeLoad, immI_encodeI _ _ _ _ _ wf]
  | sb | sh | sw => simp [encode, decode, decodeStore, immS_encodeS _ _ _ _ wf]
  | beq | bne | blt | bge | bltu | bgeu => simp [encode, decode, decodeBranch, immB_encodeB _ _ _ _ wf]
  | jalr => simp [encode, decode, decodeJalr, immI_encodeI _ _ _ _ _ wf]
  | jal => simp [encode, decode, immJ_encodeJ _ _ wf]

/-! ## Encoding a decoded word (R108), group by group -/

theorem encode_of_decodeRegReg {w : Word} {i : Instr} (ho : opcodeField w = 0x33#7) (h : decodeRegReg w = .ok i) :
    i.wf = true ∧ encode i = w := by
  have word := encodeR_fields w
  rw [ho] at word
  obtain ⟨rfl, h7, h3⟩ | ⟨rfl, h7, h3⟩ | ⟨rfl, h7, h3⟩ | ⟨rfl, h7, h3⟩ | ⟨rfl, h7, h3⟩ | ⟨rfl, h7, h3⟩ | ⟨rfl, h7, h3⟩
    | ⟨rfl, h7, h3⟩ | ⟨rfl, h7, h3⟩ | ⟨rfl, h7, h3⟩ := decodeRegReg_ok_cases h
  all_goals
    rw [h7, h3] at word
    exact ⟨rfl, word⟩

theorem fitsShift_immI {w : Word} (h : funct7Field w = 0#7) : fitsShift (immI w) = true := by
  rw [fitsShift, immI_selector w (by rw [h]; rfl), h]
  rfl

theorem fitsShiftArith_immI {w : Word} (h : funct7Field w = 0x20#7) : fitsShiftArith (immI w) = true := by
  rw [fitsShiftArith, immI_selector w (by rw [h]; rfl), h]
  rfl

theorem encode_of_decodeRegImm {w : Word} {i : Instr} (ho : opcodeField w = 0x13#7) (h : decodeRegImm w = .ok i) :
    i.wf = true ∧ encode i = w := by
  have word := encodeI_fields w
  rw [ho] at word
  obtain ⟨rfl, h3⟩ | ⟨rfl, h3⟩ | ⟨rfl, h3⟩ | ⟨rfl, h3⟩ | ⟨rfl, h3⟩ | ⟨rfl, h3⟩ | ⟨rfl, h7, h3⟩ | ⟨rfl, h7, h3⟩
    | ⟨rfl, h7, h3⟩ := decodeRegImm_ok_cases h
  all_goals rw [h3] at word
  iterate 6 exact ⟨fitsImm12_immI w, word⟩
  · exact ⟨fitsShift_immI h7, word⟩
  · exact ⟨fitsShift_immI h7, word⟩
  · exact ⟨fitsShiftArith_immI h7, word⟩

theorem encode_of_decodeLoad {w : Word} {i : Instr} (ho : opcodeField w = 0x03#7) (h : decodeLoad w = .ok i) :
    i.wf = true ∧ encode i = w := by
  have word := encodeI_fields w
  rw [ho] at word
  obtain ⟨rfl, h3⟩ | ⟨rfl, h3⟩ | ⟨rfl, h3⟩ | ⟨rfl, h3⟩ | ⟨rfl, h3⟩ := decodeLoad_ok_cases h
  all_goals
    rw [h3] at word
    exact ⟨fitsImm12_immI w, word⟩

theorem encode_of_decodeJalr {w : Word} {i : Instr} (ho : opcodeField w = 0x67#7) (h : decodeJalr w = .ok i) :
    i.wf = true ∧ encode i = w := by
  have word := encodeI_fields w
  obtain ⟨rfl, h3⟩ := decodeJalr_ok h
  rw [ho, h3] at word
  exact ⟨fitsImm12_immI w, word⟩

theorem encode_of_decodeStore {w : Word} {i : Instr} (ho : opcodeField w = 0x23#7) (h : decodeStore w = .ok i) :
    i.wf = true ∧ encode i = w := by
  have word := encodeS_fields w ho
  obtain ⟨rfl, h3⟩ | ⟨rfl, h3⟩ | ⟨rfl, h3⟩ := decodeStore_ok_cases h
  all_goals
    rw [h3] at word
    exact ⟨fitsImm12_immS w, word⟩

theorem encode_of_decodeBranch {w : Word} {i : Instr} (ho : opcodeField w = 0x63#7) (h : decodeBranch w = .ok i) :
    i.wf = true ∧ encode i = w := by
  have word := encodeB_fields w ho
  obtain ⟨rfl, h3⟩ | ⟨rfl, h3⟩ | ⟨rfl, h3⟩ | ⟨rfl, h3⟩ | ⟨rfl, h3⟩ | ⟨rfl, h3⟩ := decodeBranch_ok_cases h
  all_goals
    rw [h3] at word
    exact ⟨fitsImm13_immB w, word⟩

theorem wf_and_encode_of_decode {w : Word} {i : Instr} (h : decode w = .ok i) : i.wf = true ∧ encode i = w := by
  obtain ⟨ho, h⟩ | ⟨ho, h⟩ | ⟨ho, h⟩ | ⟨ho, h⟩ | ⟨ho, h⟩ | ⟨ho, h⟩ | ⟨ho, rfl⟩ | ⟨ho, rfl⟩ | ⟨ho, rfl⟩ :=
    decode_ok_cases h
  · exact encode_of_decodeRegReg ho h
  · exact encode_of_decodeRegImm ho h
  · exact encode_of_decodeLoad ho h
  · exact encode_of_decodeJalr ho h
  · exact encode_of_decodeStore ho h
  · exact encode_of_decodeBranch ho h
  · exact ⟨fitsUpper_immU w, by rw [encode, ← ho]; exact encodeU_fields w⟩
  · exact ⟨fitsUpper_immU w, by rw [encode, ← ho]; exact encodeU_fields w⟩
  · exact ⟨fitsImm21_immJ w, encodeJ_fields w ho⟩

/-- Settles O2: each group's answer is rebuilt from the fields it was read from. -/
theorem encodeOfDecodeIsTheWord : Obligations.EncodeOfDecodeIsTheWord := fun _ _ => wf_and_encode_of_decode

/-! ## The opcode table (R96 to R104) -/

/-- Every well-formed instruction is encoded by its own pattern. -/
theorem encode_matches_pattern (i : Instr) : EncodingPattern.Statement i := by
  cases i with
  | add => exact EncodingPattern.add _ _ _
  | sub => exact EncodingPattern.sub _ _ _
  | sll => exact EncodingPattern.sll _ _ _
  | slt => exact EncodingPattern.slt _ _ _
  | sltu => exact EncodingPattern.sltu _ _ _
  | xor => exact EncodingPattern.xor _ _ _
  | srl => exact EncodingPattern.srl _ _ _
  | sra => exact EncodingPattern.sra _ _ _
  | or => exact EncodingPattern.or _ _ _
  | and => exact EncodingPattern.and _ _ _
  | addi => exact EncodingPattern.addi _ _ _
  | slti => exact EncodingPattern.slti _ _ _
  | sltiu => exact EncodingPattern.sltiu _ _ _
  | xori => exact EncodingPattern.xori _ _ _
  | ori => exact EncodingPattern.ori _ _ _
  | andi => exact EncodingPattern.andi _ _ _
  | slli => exact EncodingPattern.slli _ _ _
  | srli => exact EncodingPattern.srli _ _ _
  | srai => exact EncodingPattern.srai _ _ _
  | lui => exact EncodingPattern.lui _ _
  | auipc => exact EncodingPattern.auipc _ _
  | lb => exact EncodingPattern.lb _ _ _
  | lh => exact EncodingPattern.lh _ _ _
  | lw => exact EncodingPattern.lw _ _ _
  | lbu => exact EncodingPattern.lbu _ _ _
  | lhu => exact EncodingPattern.lhu _ _ _
  | sb => exact EncodingPattern.sb _ _ _
  | sh => exact EncodingPattern.sh _ _ _
  | sw => exact EncodingPattern.sw _ _ _
  | beq => exact EncodingPattern.beq _ _ _
  | bne => exact EncodingPattern.bne _ _ _
  | blt => exact EncodingPattern.blt _ _ _
  | bge => exact EncodingPattern.bge _ _ _
  | bltu => exact EncodingPattern.bltu _ _ _
  | bgeu => exact EncodingPattern.bgeu _ _ _
  | jalr => exact EncodingPattern.jalr _ _ _
  | jal => exact EncodingPattern.jal _ _

theorem pattern_mem_opcodeRows (i : Instr) : (mnemonic i, (pattern i).2, (pattern i).1) ∈ opcodeRows := by
  cases i <;> simp only [mnemonic, pattern] <;> decide

/-- The rows of R97 and R98's shifts by their selectors: mnemonic, funct7, funct3, opcode. -/
def funct7Rows : List (String × BitVec 7 × BitVec 3 × BitVec 7) :=
  [("ADD", 0x00#7, 0#3, 0x33#7), ("SUB", 0x20#7, 0#3, 0x33#7), ("SLL", 0x00#7, 1#3, 0x33#7),
   ("SLT", 0x00#7, 2#3, 0x33#7), ("SLTU", 0x00#7, 3#3, 0x33#7), ("XOR", 0x00#7, 4#3, 0x33#7),
   ("SRL", 0x00#7, 5#3, 0x33#7), ("SRA", 0x20#7, 5#3, 0x33#7), ("OR", 0x00#7, 6#3, 0x33#7),
   ("AND", 0x00#7, 7#3, 0x33#7), ("SLLI", 0x00#7, 1#3, 0x13#7), ("SRLI", 0x00#7, 5#3, 0x13#7),
   ("SRAI", 0x20#7, 5#3, 0x13#7)]

/-- The other rows of R98 and those of R99 to R102: mnemonic, funct3, opcode. -/
def funct3Rows : List (String × BitVec 3 × BitVec 7) :=
  [("ADDI", 0#3, 0x13#7), ("SLTI", 2#3, 0x13#7), ("SLTIU", 3#3, 0x13#7), ("XORI", 4#3, 0x13#7), ("ORI", 6#3, 0x13#7),
   ("ANDI", 7#3, 0x13#7), ("LB", 0#3, 0x03#7), ("LH", 1#3, 0x03#7), ("LW", 2#3, 0x03#7), ("LBU", 4#3, 0x03#7),
   ("LHU", 5#3, 0x03#7), ("SB", 0#3, 0x23#7), ("SH", 1#3, 0x23#7), ("SW", 2#3, 0x23#7), ("BEQ", 0#3, 0x63#7),
   ("BNE", 1#3, 0x63#7), ("BLT", 4#3, 0x63#7), ("BGE", 5#3, 0x63#7), ("BLTU", 6#3, 0x63#7), ("BGEU", 7#3, 0x63#7),
   ("JALR", 0#3, 0x67#7)]

/-- The rows of R103: mnemonic, opcode. -/
def opcodeOnlyRows : List (String × BitVec 7) := [("LUI", 0x37#7), ("AUIPC", 0x17#7), ("JAL", 0x6F#7)]

theorem opcodeRows_cases : ∀ row ∈ opcodeRows,
    (∃ q ∈ funct7Rows, row = (q.1, q.2.1 ++ 0#10 ++ q.2.2.1 ++ 0#5 ++ q.2.2.2, 0xFE00707F#32))
    ∨ (∃ q ∈ funct3Rows, row = (q.1, 0#17 ++ q.2.1 ++ 0#5 ++ q.2.2, 0x0000707F#32))
    ∨ ∃ q ∈ opcodeOnlyRows, row = (q.1, 0#25 ++ q.2, 0x0000007F#32) := by decide

/-- The word is an instruction of this mnemonic. -/
def DecodesTo (w : Word) (name : String) : Prop := ∃ i, decode w = .ok i ∧ mnemonic i = name

theorem decodesTo_of_funct7Row {w : Word} : ∀ q ∈ funct7Rows,
    funct7Field w = q.2.1 ∧ funct3Field w = q.2.2.1 ∧ opcodeField w = q.2.2.2 → DecodesTo w q.1 := by
  simp only [funct7Rows, List.forall_mem_cons, List.not_mem_nil, false_imp_iff, implies_true, and_true]
  refine ⟨?_, ?_, ?_, ?_, ?_, ?_, ?_, ?_, ?_, ?_, ?_, ?_, ?_⟩
  all_goals
    rintro ⟨h7, h3, ho⟩
    simp [DecodesTo, decode, decodeRegReg, decodeRegImm, mnemonic, h7, h3, ho]

theorem decodesTo_of_funct3Row {w : Word} : ∀ q ∈ funct3Rows,
    funct3Field w = q.2.1 ∧ opcodeField w = q.2.2 → DecodesTo w q.1 := by
  simp only [funct3Rows, List.forall_mem_cons, List.not_mem_nil, false_imp_iff, implies_true, and_true]
  refine ⟨?_, ?_, ?_, ?_, ?_, ?_, ?_, ?_, ?_, ?_, ?_, ?_, ?_, ?_, ?_, ?_, ?_, ?_, ?_, ?_, ?_⟩
  all_goals
    rintro ⟨h3, ho⟩
    simp [DecodesTo, decode, decodeRegImm, decodeLoad, decodeJalr, decodeStore, decodeBranch, mnemonic, h3, ho]

theorem decodesTo_of_opcodeOnlyRow {w : Word} : ∀ q ∈ opcodeOnlyRows, opcodeField w = q.2 → DecodesTo w q.1 := by
  simp only [opcodeOnlyRows, List.forall_mem_cons, List.not_mem_nil, false_imp_iff, implies_true, and_true]
  refine ⟨?_, ?_, ?_⟩
  all_goals
    intro ho
    simp [DecodesTo, decode, mnemonic, ho]

theorem decodesTo_of_row {w : Word} {row : String × Word × Word} (mem : row ∈ opcodeRows)
    (matched : w &&& row.2.2 = row.2.1) : DecodesTo w row.1 := by
  obtain ⟨q, hq, rfl⟩ | ⟨q, hq, rfl⟩ | ⟨q, hq, rfl⟩ := opcodeRows_cases row mem
  · exact decodesTo_of_funct7Row q hq ((matches_funct7_funct3_opcode ..).1 matched)
  · exact decodesTo_of_funct3Row q hq ((matches_funct3_opcode ..).1 matched)
  · exact decodesTo_of_opcodeOnlyRow q hq ((matches_opcode ..).1 matched)

/-- Settles O3: a decoded word is its instruction's encoding, which carries its row's pattern; a row's pattern fixes the
selectors the decoder looks at. -/
theorem definedWordsAreTheOpcodeTableRows : Obligations.DefinedWordsAreTheOpcodeTableRows := by
  refine fun w => ⟨fun i h => ?_, fun row => decodesTo_of_row⟩
  obtain ⟨wf, rfl⟩ := wf_and_encode_of_decode h
  exact ⟨_, pattern_mem_opcodeRows i, rfl, encode_matches_pattern i wf⟩

/-! ## The register fields of a decoded word (R82 to R89) -/

theorem rd_isSome_iff (i : Instr) : i.rd.isSome = true ↔ i.fmt = .r ∨ i.fmt = .i ∨ i.fmt = .u ∨ i.fmt = .j := by
  cases i <;> simp [Instr.rd, Instr.fmt]

theorem rs1_isSome_iff (i : Instr) : i.rs1.isSome = true ↔ i.fmt = .r ∨ i.fmt = .i ∨ i.fmt = .s ∨ i.fmt = .b := by
  cases i <;> simp [Instr.rs1, Instr.fmt]

theorem rs2_isSome_iff (i : Instr) : i.rs2.isSome = true ↔ i.fmt = .r ∨ i.fmt = .s ∨ i.fmt = .b := by
  cases i <;> simp [Instr.rs2, Instr.fmt]

theorem rdField_encode {i : Instr} {d : Reg} (h : i.rd = some d) : rdField (encode i) = d := by
  cases i <;> simp_all [Instr.rd, encode]

theorem rs1Field_encode {i : Instr} {a : Reg} (h : i.rs1 = some a) : rs1Field (encode i) = a := by
  cases i <;> simp_all [Instr.rs1, encode]

theorem rs2Field_encode {i : Instr} {b : Reg} (h : i.rs2 = some b) : rs2Field (encode i) = b := by
  cases i <;> simp_all [Instr.rs2, encode]

theorem regField_val (w : Word) (lo : Nat) : (regField w lo).val = w.toNat / 2 ^ lo % 2 ^ 5 := by
  simp [regField, Nat.shiftRight_eq_div_pow]

/-- Settles O4: the word is the encoding of what it decodes to, and the encoder's register fields read back. -/
theorem registerFieldsOfADecodedWord : Obligations.RegisterFieldsOfADecodedWord := by
  intro w i h
  obtain ⟨-, rfl⟩ := wf_and_encode_of_decode h
  refine ⟨rd_isSome_iff i, rs1_isSome_iff i, rs2_isSome_iff i, fun d hd => ?_, fun a ha => ?_, fun b hb => ?_⟩
  · rw [← rdField_encode hd]
    exact regField_val _ 7
  · rw [← rs1Field_encode ha]
    exact regField_val _ 15
  · rw [← rs2Field_encode hb]
    exact regField_val _ 20

/-! ## The immediate of a decoded word (R90 to R94) -/

theorem imm_of_fmt_r {i : Instr} (h : i.fmt = .r) : i.imm = 0#32 := by
  cases i <;> simp_all [Instr.fmt, Instr.imm]

theorem imm_of_fmt_i {i : Instr} (wf : i.wf = true) (h : i.fmt = .i) : i.imm = immI (encode i) := by
  cases i with
  | addi | slti | sltiu | xori | ori | andi | lb | lh | lw | lbu | lhu | jalr =>
    exact (immI_encodeI _ _ _ _ _ wf).symm
  | slli | srli => exact (immI_encodeI _ _ _ _ _ (fitsImm12_of_fitsShift wf).1).symm
  | srai => exact (immI_encodeI _ _ _ _ _ (fitsImm12_of_fitsShiftArith wf).1).symm
  | _ => cases h

theorem imm_of_fmt_s {i : Instr} (wf : i.wf = true) (h : i.fmt = .s) : i.imm = immS (encode i) := by
  cases i with
  | sb | sh | sw => exact (immS_encodeS _ _ _ _ wf).symm
  | _ => cases h

theorem imm_of_fmt_b {i : Instr} (wf : i.wf = true) (h : i.fmt = .b) : i.imm = immB (encode i) := by
  cases i with
  | beq | bne | blt | bge | bltu | bgeu => exact (immB_encodeB _ _ _ _ wf).symm
  | _ => cases h

theorem imm_of_fmt_u {i : Instr} (wf : i.wf = true) (h : i.fmt = .u) : i.imm = immU (encode i) := by
  cases i with
  | lui | auipc => exact (immU_encodeU _ _ _ wf).symm
  | _ => cases h

theorem imm_of_fmt_j {i : Instr} (wf : i.wf = true) (h : i.fmt = .j) : i.imm = immJ (encode i) := by
  cases i with
  | jal => exact (immJ_encodeJ _ _ wf).symm
  | _ => cases h

/-- Settles O5: the immediate is its format's reading of the encoded word, and each reading is a sum of bit groups. -/
theorem immediateOfADecodedWord : Obligations.ImmediateOfADecodedWord := by
  intro w i h
  obtain ⟨wf, rfl⟩ := wf_and_encode_of_decode h
  exact ⟨imm_of_fmt_r,
    fun fmt => imm_of_fmt_i wf fmt ▸ immI_toInt _,
    fun fmt => imm_of_fmt_s wf fmt ▸ immS_toInt _,
    fun fmt => imm_of_fmt_b wf fmt ▸ immB_toInt _,
    fun fmt => imm_of_fmt_u wf fmt ▸ immU_toNat _,
    fun fmt => imm_of_fmt_j wf fmt ▸ immJ_toInt _⟩

/-- Settles O6: ten words, each run through the decoder. -/
theorem sampleWordsDecode : Obligations.SampleWordsDecode := by
  refine ⟨?_, ?_, ?_, ?_, ?_, ?_, ?_, ?_, ?_, ?_⟩ <;> decide

end Sys2Proof
end

section
/-! PROOFS. The reference (R188): the meaning of each instruction is the reference's run over the control unit and the
ALU; a word that is no instruction only moves the program counter. -/

namespace Sys2Proof.Machine

open Sys2Proof.Claims

theorem sameRegisters_of_x {s t : State} (h : t.x = s.x) : SameRegisters s t := fun r => by
  rw [State.readReg, State.readReg, h]

theorem sameMemory_of_dmem {s t : State} (h : t.dmem = s.dmem) : SameMemory s t := fun a => by rw [h]

/-- The meaning of a defined instruction is the reference's run of its snapshot. -/
theorem exec_eq_seqRun (raw : Word) (i : Instr) (s : State) :
    exec i s = .next (seqRun { raw := raw, instr := some i } s) := by
  cases i with
  | bge => rw [exec, execBge, BitVec.sle_eq_not_slt]; rfl
  | bgeu => rw [exec, execBgeu, BitVec.ule_eq_not_ult]; rfl
  | _ => rfl

theorem runSnapshot_eq_seqRun (i : Snapshot) (s : State) : runSnapshot i s = .next (seqRun i s) := by
  obtain ⟨raw, _ | instr⟩ := i
  · rfl
  · exact exec_eq_seqRun raw instr s

/-- Settles O17: the fetched word is run by its meaning or skipped, and either is the reference's run. -/
theorem meaningsAreTheReferenceStep : Obligations.MeaningsAreTheReferenceStep := fun s =>
  runSnapshot_eq_seqRun (snapshot (fetchedWord s)) s

/-- Settles O29: a step is a tick, and a meaning is the reference's run; neither has another outcome. -/
theorem everyStepAndMeaningAnswersNext : Obligations.EveryStepAndMeaningAnswersNext :=
  ⟨fun s => ⟨tick s, rfl⟩, fun i s => ⟨_, exec_eq_seqRun 0#32 i s⟩⟩

end Sys2Proof.Machine
end

section
/-! PROOFS. The memories (R51 to R59): what a read inside the bytes of a write gives, and which word Fetch reads. -/

namespace Sys2Proof.Machine

open Sys2Proof.Claims

/-! ## Data memory (R51 to R54) -/

/-- Consecutive bytes of a word, read together, are that part of the word. -/
theorem readBytes_toNat_of_bytes_of_word {m : Memory} {v : Word} {a k n : Nat} (hn : n ≤ 4)
    (bytes : ∀ j < n, readByte m (a + j) = v.extractLsb' (8 * (k + j)) 8) :
    (readBytes m a n).toNat = v.toNat / 2 ^ (8 * k) % 2 ^ (8 * n) := by
  induction n generalizing a k with
  | zero => simp [readBytes, Nat.mod_one]
  | succ n ih =>
    have low : (readByte m a).toNat = v.toNat / 2 ^ (8 * k) % 2 ^ 8 := by
      have := bytes 0 (by omega)
      simp only [add_zero] at this
      rw [this, BitVec.extractLsb'_toNat, Nat.shiftRight_eq_div_pow]
    have high : (readBytes m (a + 1) n).toNat = v.toNat / 2 ^ (8 * k) / 2 ^ 8 % 2 ^ (8 * n) := by
      rw [ih (a := a + 1) (k := k + 1) (by omega), Nat.div_div_eq_div_mul, ← pow_add, mul_add_one]
      intro j hj
      have := bytes (j + 1) (by omega)
      rwa [← add_assoc, add_right_comm, ← add_assoc, add_right_comm k] at this
    calc (readBytes m a (n + 1)).toNat
        = v.toNat / 2 ^ (8 * k) % 2 ^ 8 + 256 * (v.toNat / 2 ^ (8 * k) / 2 ^ 8 % 2 ^ (8 * n)) := by
          rw [(readBytes_toNat_succ m a n hn (readBytes_toNat_lt _ _ _ (by omega))).1, low, high]
      _ = v.toNat / 2 ^ (8 * k) % 2 ^ (8 * (n + 1)) := by
          rw [show 256 = 2 ^ 8 from rfl, ← Nat.mod_mul, ← pow_add, mul_add_one, add_comm 8]

theorem memRead_of_inBounds {size : Nat} {addr : Word} {n : Width} (h : addr.toNat + n.bytes ≤ size) (m : Memory) :
    memRead size m addr n = readBytes m addr.toNat n.bytes := if_pos (decide_eq_true h)

/-- A read of width `n` that lies `k` bytes above the address of a store, and inside it. -/
theorem memRead_memWrite_toNat {m : Memory} (wf : m.wf = true) {size k : Nat} {addr addr' v : Word} {n n' : Width}
    (hb : addr.toNat + n.bytes ≤ size) (ha : addr'.toNat = addr.toNat + k) (hk : k + n'.bytes ≤ n.bytes) :
    (memRead size (memWrite size m addr n v) addr' n').toNat = v.toNat / 2 ^ (8 * k) % 2 ^ (8 * n'.bytes) := by
  rw [memRead_of_inBounds (by omega)]
  refine readBytes_toNat_of_bytes_of_word n'.bytes_le fun j hj => ?_
  rw [readByte_memWrite wf, if_pos (by omega)]
  congr 2
  omega

/-- Settles O19: in bounds a read sees the bytes just written; out of bounds neither the read nor the write is made. -/
theorem memoryReadsBackWhatWasWritten : Obligations.MemoryReadsBackWhatWasWritten := by
  refine fun size m addr n v wf => ⟨fun inside => ?_, fun outside => ?_⟩
  · have hb : addr.toNat + n.bytes ≤ size := of_decide_eq_true inside
    simpa using memRead_memWrite_toNat wf (k := 0) (v := v) hb rfl (by omega)
  · simp [memRead, memWrite, outside]

theorem toNat_add_ofNat {addr : Word} {k : Nat} (h : addr.toNat + k < 2 ^ 32) :
    (addr + BitVec.ofNat 32 k).toNat = addr.toNat + k := by
  rw [BitVec.toNat_add, BitVec.toNat_ofNat, Nat.add_mod_mod, Nat.mod_eq_of_lt h]

theorem toNat_zeroExtend_extractLsb' (v : Word) {lo len : Nat} (h : len ≤ 32) :
    ((v.extractLsb' lo len).zeroExtend 32).toNat = v.toNat / 2 ^ lo % 2 ^ len := by
  rw [BitVec.zeroExtend_eq_setWidth, BitVec.toNat_setWidth_of_le h, BitVec.extractLsb'_toNat, Nat.shiftRight_eq_div_pow]

/-- Settles O20: a narrower read above the address of a stored word sees that part of the word. -/
theorem narrowReadsSeeTheBytesOfAWord : Obligations.NarrowReadsSeeTheBytesOfAWord := by
  intro size m addr v wf hb hsize m'
  have narrow : ∀ (n : Width) (k : Nat), k + n.bytes ≤ 4 →
      memRead size m' (addr + BitVec.ofNat 32 k) n = (v.extractLsb' (8 * k) (8 * n.bytes)).zeroExtend 32 := by
    intro n k hk
    apply BitVec.eq_of_toNat_eq
    rw [toNat_zeroExtend_extractLsb' v (by omega)]
    exact memRead_memWrite_toNat (n := .word) wf hb (toNat_add_ofNat (by omega)) hk
  exact ⟨fun k hk => narrow .byte k hk, fun k hk => narrow .half k (Nat.add_le_add_right hk 2)⟩

/-! ## Instruction memory (R58, R59) -/

theorem wordIndex_toNat (pc : Word) : (pc.extractLsb' 2 30).toNat = pc.toNat / 4 := by
  have := pc.isLt
  rw [BitVec.extractLsb'_toNat, Nat.shiftRight_eq_div_pow]
  omega

theorem ifetch_eq (imem : List Word) (pc : Word) : ifetch imem pc = (imem[pc.toNat / 4]?).getD 0#32 := by
  rw [ifetch, wordIndex_toNat]

theorem ifetch_beyond {imem : List Word} {pc : Word} (h : imem.length ≤ pc.toNat / 4) : ifetch imem pc = 0#32 := by
  rw [ifetch_eq, List.getElem?_eq_none h]
  rfl

theorem decode_zero : decode 0#32 = .error (.opcode 0#7) := rfl

theorem wordIndex_of_aligned (pc : Word) : (pc &&& 0xFFFFFFFC#32).extractLsb' 2 30 = pc.extractLsb' 2 30 := by
  have mask : ∀ k < 30, (0xFFFFFFFC#32).getLsbD (2 + k) = true := by decide
  apply BitVec.eq_of_getLsbD_eq
  intro k hk
  rw [BitVec.getLsbD_extractLsb', BitVec.getLsbD_extractLsb', BitVec.getLsbD_and, mask k hk, Bool.and_true]

/-- Settles O21: the word index is pc/4, whatever the two low bits. -/
theorem fetchReadsTheImageByWord : Obligations.FetchReadsTheImageByWord := by
  refine fun imem pc => ⟨fun inside => ?_, fun beyond => ?_, ?_⟩
  · rw [ifetch_eq, List.getElem?_eq_getElem inside]
    rfl
  · rw [ifetch_beyond beyond]
    exact ⟨rfl, _, decode_zero⟩
  · rw [ifetch, ifetch, wordIndex_of_aligned]

end Sys2Proof.Machine
end

section
/-! PROOFS. What each stage hands on in a tick (R172 to R184), once per pipeline register; the front end's four rows. -/

namespace Sys2Proof.Machine

open Sys2Proof.Claims

/-! ## Decode -/

theorem decodeStalled_eq_of_ifid {s : State} {d : IfId} (h : s.ifid = some d) :
    decodeStalled s = decodeStall (snapshot d.raw) s := by
  simp [decodeStalled, h]

theorem decodeStalled_of_empty {s : State} (h : s.ifid = none) : decodeStalled s = false := by simp [decodeStalled, h]

theorem decodeRedirect_of_empty {s : State} (h : s.ifid = none) : decodeRedirect s = none := by simp [decodeRedirect, h]

theorem decodeRedirect_of_stalled {s : State} (h : decodeStalled s = true) : decodeRedirect s = none := by
  simp [decodeRedirect, h]

theorem decodeRedirect_of_not_stalled {s : State} {d : IfId} (hd : s.ifid = some d) (hn : decodeStalled s = false) :
    decodeRedirect s = resolve (snapshot d.raw) d.pc (resolveOperands d s).1 (resolveOperands d s).2 := by
  simp [decodeRedirect, hd, hn]

theorem tick_idex_of_stalled {s : State} (h : decodeStalled s = true) : (tick s).idex = none := by
  simp [decodeStage, h]

theorem tick_idex_of_empty {s : State} (h : s.ifid = none) : (tick s).idex = none := by simp [decodeStage, h]

theorem tick_idex_of_not_stalled {s : State} {d : IfId} (hd : s.ifid = some d) (hn : decodeStalled s = false) :
    (tick s).idex = some (decodeEntry d (writebackRegs s)) := by
  simp [decodeStage, hd, hn]

/-- What Decode can have put into ID/EX. -/
theorem tick_idex_cases {s : State} {e : IdEx} (h : (tick s).idex = some e) :
    decodeStalled s = false ∧ ∃ d, s.ifid = some d ∧ e = decodeEntry d (writebackRegs s) := by
  rcases hs : decodeStalled s
  · rcases hd : s.ifid with _ | d
    · rw [tick_idex_of_empty hd] at h
      cases h
    · rw [tick_idex_of_not_stalled hd hs] at h
      exact ⟨rfl, d, rfl, (Option.some.inj h).symm⟩
  · rw [tick_idex_of_stalled hs] at h
    cases h

/-! ## Fetch and the redirect -/

/-- A fetch that is not kept is redirected, held by Decode, or held by Fetch itself (R184). -/
theorem not_fetchKept_cases {s : State} (h : fetchKept s = false) :
    (∃ target, decodeRedirect s = some target) ∨ decodeStalled s = true
      ∨ decodeRedirect s = none ∧ fetchStalled s = true := by
  rcases hr : decodeRedirect s with _ | target
  · rcases hs : decodeStalled s
    · exact .inr (.inr ⟨rfl, by simpa [fetchKept, hr, hs] using h⟩)
    · exact .inr (.inl rfl)
  · exact .inl ⟨target, rfl⟩

theorem decodeStalled_of_redirect {s : State} {target : Word} (h : decodeRedirect s = some target) :
    decodeStalled s = false := by
  rcases hs : decodeStalled s
  · rfl
  · rw [decodeRedirect_of_stalled hs] at h
    cases h

theorem decodeStalled_of_fetchStalled {s : State} (h : fetchStalled s = true) : decodeStalled s = false := by
  rw [fetchStalled, Bool.and_eq_true, Bool.not_eq_true'] at h
  exact h.1

theorem fetchKept_iff (s : State) :
    fetchKept s = true ↔ decodeStalled s = false ∧ decodeRedirect s = none ∧ fetchStalled s = false := by
  simp [fetchKept, and_assoc]

end Sys2Proof.Machine
end

section
/-! PROOFS. The invariant of the pipeline (R144, R152, R187): it holds at reset, and every tick keeps it. -/

namespace Sys2Proof.Machine

open Sys2Proof.Claims

/-! ## At reset -/

theorem accepted_iff (cfg : RunConfig) : cfg.accepted = true ↔ cfg.dmemSize ≤ 2 ^ 31 ∧ cfg.imem.length ≤ 2 ^ 30
    ∧ cfg.dmemInit.wf = true ∧ cfg.dmemInit.within cfg.dmemSize = true := by
  simp [RunConfig.accepted, and_assoc]

theorem consistent_resetWith {cfg : RunConfig} (h : cfg.accepted = true) : Consistent (State.resetWith cfg) := by
  obtain ⟨-, -, wf, within⟩ := (accepted_iff cfg).1 h
  exact { config := h
          zero := rfl
          memory := ⟨wf, within⟩
          ifidEntry := by simp
          idexEntry := by simp
          exmemEntry := by simp
          memwbEntry := by simp
          latched := by simp
          available := by simp }

/-- Settles O46: the pipeline is empty, and the memory is DMEM_INIT, which the parameters accept. -/
theorem consistentAfterReset : Obligations.ConsistentAfterReset := fun _ => consistent_resetWith

/-! ## After a tick -/

theorem wf_memoryData {s : State} (h : s.dmem.wf = true) : Memory.wf (memoryData s) = true := by
  unfold memoryData ExMem.storeTo
  split
  · split
    · exact wf_memWrite h ..
    · exact h
  · exact h

theorem within_memoryData {s : State} (h : s.dmem.within s.cfg.dmemSize = true) :
    Memory.within (memoryData s) s.cfg.dmemSize = true := by
  unfold memoryData ExMem.storeTo
  split
  · split
    · exact within_memWrite h ..
    · exact h
  · exact h

/-- IF/ID stays directly behind the program counter, whether it is kept, flushed or filled. -/
theorem tick_ifidEntry {s : State} (hc : Consistent s) {d : IfId} (hd : (tick s).ifid = some d) :
    d.raw = ifetch s.cfg.imem d.pc ∧ (tick s).pc = d.pc + 4#32 := by
  rcases kept : fetchKept s
  · obtain ⟨target, hr⟩ | hs | ⟨hr, hf⟩ := not_fetchKept_cases kept
    · rw [(tick_of_redirect hr).1] at hd
      cases hd
    · obtain ⟨-, same_ifid, same_pc⟩ := tick_of_decodeStalled hs
      rw [same_pc]
      exact hc.ifidEntry d (same_ifid ▸ hd)
    · rw [(tick_of_fetchStalled hf hr).1] at hd
      cases hd
  · obtain ⟨filled, next_pc⟩ := tick_of_fetchKept kept
    obtain rfl := Option.some.inj (filled.symm.trans hd)
    exact ⟨rfl, next_pc⟩

/-- Nothing that Decode lets through depends on a value that is not available one cycle later. -/
theorem tick_available {s : State} {d : IfId} (hd : s.ifid = some d) (hn : decodeStalled s = false) {r : Reg}
    (hr : r ∈ hazardSources (snapshot d.raw)) :
    if s.cfg.forwarding then s.idexLoads r = false else s.idexProduces r = false ∧ s.exmemProduces r = false := by
  rw [decodeStalled_eq_of_ifid hd, decodeStall] at hn
  split
  next forwarding =>
    simp only [forwarding, if_true, Bool.or_eq_false_iff] at hn
    exact Bool.eq_false_iff.2 (List.any_eq_false.1 hn.1 r hr)
  next no_forwarding =>
    rw [if_neg no_forwarding] at hn
    have none_produces := List.any_eq_false.1 hn r hr
    simp only [Bool.or_eq_true, not_or, Bool.not_eq_true] at none_produces
    exact none_produces.1

theorem consistent_tick {s : State} (hc : Consistent s) : Consistent (tick s) where
  config := hc.config
  zero := (writebackRegs_slot_zero s).trans hc.zero
  memory := ⟨wf_memoryData hc.memory.1, within_memoryData hc.memory.2⟩
  ifidEntry _ hd := tick_ifidEntry hc hd
  idexEntry e he := by
    obtain ⟨-, d, hd, rfl⟩ := tick_idex_cases he
    exact ⟨⟨congrArg snapshot (hc.ifidEntry d hd).1, rfl⟩, rfl⟩
  exmemEntry m hm := by
    obtain ⟨e, he, rfl⟩ := Option.map_eq_some_iff.1 hm
    exact (hc.idexEntry e he).1
  memwbEntry w hw := by
    obtain ⟨m, hm, rfl⟩ := Option.map_eq_some_iff.1 hw
    exact hc.exmemEntry m hm
  latched e he := by
    obtain ⟨-, d, -, rfl⟩ := tick_idex_cases he
    exact ⟨rfl, rfl⟩
  available e he r hr := by
    obtain ⟨hn, d, hd, rfl⟩ := tick_idex_cases he
    simpa using tick_available hd hn hr

/-- Settles O47: an entry is handed on as it is, and Decode lets nothing through that would not be available. -/
theorem stepKeepsConsistent : Obligations.StepKeepsConsistent := by
  intro s t hc h
  obtain rfl := (step_eq_next_iff s t).1 h
  exact consistent_tick hc

/-! ## The operands that are used (R154) -/

/-- Settles O54: Execute's operands are those of the completed back end, and Decode's those after ID/EX has
run as well. -/
theorem operandsAreThoseOfOlderInstructions : Obligations.OperandsAreThoseOfOlderInstructions := by
  refine fun s hc => ⟨fun e he r hr => ?_, fun e he r hr => ?_, fun hn d hd hcf r hr => ?_, fun hn d hd hcf r hr => ?_⟩
  · rw [exOperands_correct hc e he, hr]
    rfl
  · rw [exOperands_correct hc e he, hr]
    rfl
  · rw [controlFlow_operands hc d hd hn hcf, hr]
    rfl
  · rw [controlFlow_operands hc d hd hn hcf, hr]
    rfl

end Sys2Proof.Machine
end

section
/-! PROOFS. One tick of the pipeline against the reference (R188, R189): with the instructions in flight completed, a
kept fetch is one reference step and any other tick is none. -/

namespace Sys2Proof.Machine

open Sys2Proof.Claims

/-! ## Completing the front end -/

theorem SameArch.trans {u v w : State} (h : SameArch u v) (h' : SameArch v w) : SameArch u w :=
  ⟨h.x.trans h'.x, h.dmem.trans h'.dmem, h.retired.trans h'.retired, h.cfg.trans h'.cfg⟩

theorem completeIfid_of_empty {s : State} (h : s.ifid = none) (pc : Word) :
    completeIfid pc s = { s with pc := pc } := by
  simp [completeIfid, h]

theorem completeIfid_of_some {s : State} {d : IfId} (h : s.ifid = some d) (pc : Word) :
    completeIfid pc s = seqRun (snapshot d.raw) { s with pc := d.pc, ifid := none } := by
  simp [completeIfid, h]

theorem olderThanDecode_of_empty {s : State} (h : s.idex = none) : olderThanDecode s = olderThanExecute s := by
  simp [olderThanDecode, completeIdex, h]

theorem olderThanDecode_of_some {s : State} {e : IdEx} (h : s.idex = some e) :
    olderThanDecode s = seqRun e.instr { olderThanExecute s with pc := e.pc, idex := none } := by
  simp [olderThanDecode, completeIdex, h]

theorem complete_of_empty {s : State} (h : s.ifid = none) : complete s = { olderThanDecode s with pc := s.pc } :=
  completeIfid_of_empty ((olderThanDecode_fields s).1.trans h) s.pc

theorem complete_of_some {s : State} {d : IfId} (h : s.ifid = some d) :
    complete s = seqRun (snapshot d.raw) { olderThanDecode s with pc := d.pc, ifid := none } :=
  completeIfid_of_some ((olderThanDecode_fields s).1.trans h) s.pc

/-- Completing IF/ID depends on the architectural state, on what IF/ID holds and on where Fetch is. -/
theorem sameArch_complete {s t : State} (hs : SameArch (olderThanDecode s) (olderThanDecode t)) (hd : s.ifid = t.ifid)
    (hp : s.pc = t.pc) : SameArch (complete s) (complete t) ∧ (complete s).pc = (complete t).pc := by
  rcases ht : t.ifid with _ | d
  · rw [complete_of_empty ht, complete_of_empty (hd.trans ht)]
    exact ⟨⟨hs.x, hs.dmem, hs.retired, hs.cfg⟩, hp⟩
  · rw [complete_of_some ht, complete_of_some (hd.trans ht)]
    exact hs.seqRun _ d.pc ⟨rfl, rfl, rfl, rfl, rfl⟩ ⟨rfl, rfl, rfl, rfl, rfl⟩

/-! ## The state behind Decode after a tick -/

theorem olderThanDecode_tick_of_stalled {s : State} (hc : Consistent s) (h : decodeStalled s = true) :
    SameArch (olderThanDecode (tick s)) (olderThanDecode s) := by
  rw [olderThanDecode_of_empty (tick_idex_of_stalled h)]
  exact olderThanExecute_tick hc

/-- An instruction that leaves Decode is one more completed behind it. -/
theorem olderThanDecode_tick_of_not_stalled {s : State} (hc : Consistent s) (h : decodeStalled s = false) :
    SameArch (olderThanDecode (tick s)) (complete s) := by
  have older := olderThanExecute_tick hc
  rcases hd : s.ifid with _ | d
  · rw [olderThanDecode_of_empty (tick_idex_of_empty hd), complete_of_empty hd]
    exact ⟨older.x, older.dmem, older.retired, older.cfg⟩
  · rw [olderThanDecode_of_some (tick_idex_of_not_stalled hd h), complete_of_some hd]
    refine (older.seqRun _ d.pc ?_ ?_).1
    · exact ⟨rfl, rfl, rfl, rfl, rfl⟩
    · exact ⟨rfl, rfl, rfl, rfl, rfl⟩

/-- Where the completed instructions send control (R183): to Decode's redirect, else to where Fetch is. -/
theorem complete_pc {s : State} (hc : Consistent s) (h : decodeStalled s = false) :
    (complete s).pc = (decodeRedirect s).getD s.pc := by
  rcases hd : s.ifid with _ | d
  · rw [complete_of_empty hd, decodeRedirect_of_empty hd]
    rfl
  · rw [complete_of_some hd, (hc.ifidEntry d hd).2]
    exact seqRun_pc hc d hd h _ rfl rfl

/-! ## One tick -/

/-- A state with nothing in flight is its architectural state, the program counter and the cycle count. -/
theorem complete_eq_of_sameArch {s t : State} (arch : SameArch (complete s) (complete t))
    (pc : (complete s).pc = (complete t).pc) : complete s = { complete t with cycle := s.cycle } := by
  obtain ⟨ifid, idex, exmem, memwb, cycle, -⟩ := complete_fields s
  obtain ⟨ifid', idex', exmem', memwb', -, -⟩ := complete_fields t
  exact SameArch.eq ⟨arch.x, arch.dmem, arch.retired, arch.cfg⟩ pc (ifid.trans ifid'.symm) (idex.trans idex'.symm)
    (exmem.trans exmem'.symm) (memwb.trans memwb'.symm) cycle

/-- A tick whose fetch is stalled or flushed has no effect behind the pipeline. -/
theorem complete_tick_of_not_kept {s : State} (hc : Consistent s) (h : fetchKept s = false) :
    complete (tick s) = { complete s with cycle := s.cycle + 1 } := by
  suffices same : SameArch (complete (tick s)) (complete s) ∧ (complete (tick s)).pc = (complete s).pc from
    complete_eq_of_sameArch same.1 same.2
  rcases hs : decodeStalled s
  · have flushed : (tick s).ifid = none ∧ (tick s).pc = (decodeRedirect s).getD s.pc := by
      obtain ⟨target, hr⟩ | hs' | ⟨hr, hf⟩ := not_fetchKept_cases h
      · rw [hr]
        exact tick_of_redirect hr
      · rw [hs] at hs'
        cases hs'
      · rw [hr]
        exact tick_of_fetchStalled hf hr
    have older := olderThanDecode_tick_of_not_stalled hc hs
    rw [complete_of_empty flushed.1, complete_pc hc hs]
    exact ⟨⟨older.x, older.dmem, older.retired, older.cfg⟩, flushed.2⟩
  · obtain ⟨-, same_ifid, same_pc⟩ := tick_of_decodeStalled hs
    exact sameArch_complete (olderThanDecode_tick_of_stalled hc hs) same_ifid same_pc

theorem complete_pc_of_kept {s : State} (hc : Consistent s) (h : fetchKept s = true) : (complete s).pc = s.pc := by
  obtain ⟨hs, hr, -⟩ := (fetchKept_iff s).1 h
  rw [complete_pc hc hs, hr]
  rfl

theorem complete_cfg (s : State) : (complete s).cfg = s.cfg := by
  obtain ⟨-, -, -, -, -, cfg⟩ := complete_fields s
  exact cfg

theorem seqStep_complete {s : State} (hc : Consistent s) (h : fetchKept s = true) :
    seqStep (complete s) = seqRun (snapshot (fetchedWord s)) (complete s) := by
  rw [seqStep, fetchedWord, complete_pc_of_kept hc h, complete_cfg]
  rfl

/-- A tick that keeps its fetch is one step of the reference behind the pipeline. -/
theorem complete_tick_of_kept {s : State} (hc : Consistent s) (h : fetchKept s = true) :
    complete (tick s) = { seqStep (complete s) with cycle := s.cycle + 1 } := by
  have older := olderThanDecode_tick_of_not_stalled hc ((fetchKept_iff s).1 h).1
  have run : SameArch (complete (tick s)) (seqStep (complete s))
      ∧ (complete (tick s)).pc = (seqStep (complete s)).pc := by
    rw [complete_of_some (tick_of_fetchKept h).1, seqStep_complete hc h]
    refine older.seqRun _ s.pc ?_ ?_
    · exact ⟨rfl, rfl, rfl, rfl, rfl⟩
    · exact ⟨rfl, rfl, rfl, rfl, complete_pc_of_kept hc h⟩
  obtain ⟨ifid, idex, exmem, memwb, cycle, -⟩ := complete_fields (tick s)
  obtain ⟨ifid', idex', exmem', memwb', -, -⟩ := complete_fields s
  obtain ⟨arch, pc⟩ := run
  refine SameArch.eq ⟨arch.x, arch.dmem, arch.retired, arch.cfg⟩ pc ?_ ?_ ?_ ?_ cycle
  · rw [ifid]
    exact ((seqRun_ifid ..).trans ifid').symm
  · rw [idex]
    exact ((seqRun_idex ..).trans idex').symm
  · rw [exmem]
    exact ((seqRun_exmem ..).trans exmem').symm
  · rw [memwb]
    exact ((seqRun_memwb ..).trans memwb').symm

theorem seqRun_of_decode {w : Word} {i : Instr} (h : decode w = .ok i) {s t : State} (run : exec i s = .next t) :
    seqRun (snapshot w) s = t := by
  rw [exec_eq_seqRun w i s] at run
  rw [snapshot, decodeInstr_of_ok h]
  exact Host.Outcome.next.inj run

theorem seqRun_of_rejected {w : Word} {r : Rejection} (h : decode w = .error r) (s : State) :
    seqRun (snapshot w) s = s.skipInvalid := by
  simp [seqRun, snapshot, decodeInstr_of_error h]

/-- Settles O45: a kept fetch is one reference step on the completed state, any other tick none. -/
theorem stepRunsTheNextInstruction : Obligations.StepRunsTheNextInstruction := by
  refine fun s hc => ⟨tick s, rfl, complete_pc_of_kept hc, fun i s' kept hi run => ?_, fun r kept hr => ?_,
    complete_tick_of_not_kept hc⟩
  · have step : seqStep (complete s) = s' := (seqStep_complete hc kept).trans (seqRun_of_decode hi run)
    rw [complete_tick_of_kept hc kept, step]
  · have step : seqStep (complete s) = (complete s).skipInvalid :=
      (seqStep_complete hc kept).trans (seqRun_of_rejected hr _)
    rw [complete_tick_of_kept hc kept, step, State.skipInvalid, complete_pc_of_kept hc kept]

end Sys2Proof.Machine
end

section
/-! PROOFS. Runs from reset against the reference (R189, R350): each pipeline stage is some number of reference steps
ahead of the committed state, one per entry on the way. -/

namespace Sys2Proof.Machine

open Sys2Proof.Claims

/-! ## How far ahead of the committed state each stage is -/

/-- A pipeline register's entry is one reference step, a bubble none. -/
def entryCount {α : Type} (p : Option α) : Nat := if p.isSome then 1 else 0

/-- The committed state of `s` is that of `m` reference steps from `r`, and completing each further pipeline register
takes one step more per entry. A store in MEM/WB has already been performed. -/
structure StepsBehind (r s : State) (m : Nat) : Prop where
  registers : s.x = (seqSteps m r).x
  retired : s.retired = (seqSteps m r).retired
  memory : (∀ w ∈ s.memwb, w.ctrl.memoryWrite = false) → s.dmem = (seqSteps m r).dmem
  afterMemwb : SameArch (completeMemwb s) (seqSteps (m + entryCount s.memwb) r)
  afterExmem : SameArch (olderThanExecute s) (seqSteps (m + entryCount s.memwb + entryCount s.exmem) r)
  afterIdex : SameArch (olderThanDecode s)
    (seqSteps (m + entryCount s.memwb + entryCount s.exmem + entryCount s.idex) r)
  afterIfid : SameArch (complete s)
      (seqSteps (m + entryCount s.memwb + entryCount s.exmem + entryCount s.idex + entryCount s.ifid) r)
    ∧ (complete s).pc
      = (seqSteps (m + entryCount s.memwb + entryCount s.exmem + entryCount s.idex + entryCount s.ifid) r).pc

theorem stepsBehind_resetWith (cfg : RunConfig) : StepsBehind (State.resetWith cfg) (State.resetWith cfg) 0 where
  registers := rfl
  retired := rfl
  memory _ := rfl
  afterMemwb := ⟨rfl, rfl, rfl, rfl⟩
  afterExmem := ⟨rfl, rfl, rfl, rfl⟩
  afterIdex := ⟨rfl, rfl, rfl, rfl⟩
  afterIfid := ⟨⟨rfl, rfl, rfl, rfl⟩, rfl⟩

/-! ## Every tick moves each stage's steps one register on -/

theorem seqSteps_succ_last (n : Nat) (s : State) : seqSteps (n + 1) s = seqStep (seqSteps n s) := by
  induction n generalizing s with
  | zero => rfl
  | succ n ih => exact ih (seqStep s)

theorem SameArch.seqStep {u v : State} (h : SameArch u v) (pc : u.pc = v.pc) :
    SameArch (seqStep u) (seqStep v) ∧ (seqStep u).pc = (seqStep v).pc := by
  have word : fetchedWord u = fetchedWord v := by rw [fetchedWord, fetchedWord, h.cfg, pc]
  rw [Machine.seqStep, Machine.seqStep, word]
  exact h.seqRun _ u.pc ⟨rfl, rfl, rfl, rfl, rfl⟩ ⟨rfl, rfl, rfl, rfl, pc.symm⟩

/-- After a tick the state behind MEM/WB is the one behind EX/MEM before. -/
theorem completeMemwb_tick (s : State) : SameArch (completeMemwb (tick s)) (olderThanExecute s) := by
  rcases h : s.exmem with _ | m
  all_goals
    exact ⟨by simp [olderThanExecute, completeExmem, writebackRegs, memoryStage, h],
      by simp [olderThanExecute, completeExmem, memoryData, h],
      by simp [olderThanExecute, completeExmem, writebackRetired, memoryStage, ExMem.access, h], by simp⟩

theorem memoryData_of_no_store {s : State} (h : ∀ m ∈ s.exmem, m.ctrl.memoryWrite = false) : memoryData s = s.dmem := by
  unfold memoryData ExMem.storeTo
  rcases hm : s.exmem with _ | m
  · rfl
  · simp [h m hm]

@[simp] theorem entryCount_tick_memwb (s : State) : entryCount (tick s).memwb = entryCount s.exmem := by
  simp [entryCount, memoryStage]

@[simp] theorem entryCount_tick_exmem (s : State) : entryCount (tick s).exmem = entryCount s.idex := by
  simp [entryCount, executeStage]

theorem entryCount_tick_idex (s : State) :
    entryCount (tick s).idex = if decodeStalled s then 0 else entryCount s.ifid := by
  simp only [entryCount, tick_idex, decodeStage]
  split <;> simp

/-- No entry of the front end is lost but by leaving it, and none is added but by a kept fetch. -/
theorem entryCount_tick_frontEnd (s : State) : entryCount (tick s).idex + entryCount (tick s).ifid
    = entryCount s.ifid + if fetchKept s then 1 else 0 := by
  rw [entryCount_tick_idex]
  rcases kept : fetchKept s
  · obtain ⟨target, hr⟩ | hs | ⟨hr, hf⟩ := not_fetchKept_cases kept
    · rw [(tick_of_redirect hr).1, decodeStalled_of_redirect hr]
      simp [entryCount]
    · rw [(tick_of_decodeStalled hs).2.1, hs]
      simp
    · rw [(tick_of_fetchStalled hf hr).1, decodeStalled_of_fetchStalled hf]
      simp [entryCount]
  · rw [(tick_of_fetchKept kept).1, ((fetchKept_iff s).1 kept).1]
    simp [entryCount]

theorem stepsBehind_tick {r s : State} {m : Nat} (hc : Consistent s) (h : StepsBehind r s m) :
    StepsBehind r (tick s) (m + entryCount s.memwb) where
  registers := h.afterMemwb.x
  retired := h.afterMemwb.retired
  memory no_store := by
    refine (memoryData_of_no_store fun e he => ?_).trans h.afterMemwb.dmem
    exact no_store _ (Option.mem_map_of_mem _ he)
  afterMemwb := by
    rw [entryCount_tick_memwb]
    exact (completeMemwb_tick s).trans h.afterExmem
  afterExmem := by
    rw [entryCount_tick_memwb, entryCount_tick_exmem]
    exact (olderThanExecute_tick hc).trans h.afterIdex
  afterIdex := by
    rw [entryCount_tick_memwb, entryCount_tick_exmem, entryCount_tick_idex]
    rcases hs : decodeStalled s
    · exact (olderThanDecode_tick_of_not_stalled hc hs).trans h.afterIfid.1
    · exact (olderThanDecode_tick_of_stalled hc hs).trans h.afterIdex
  afterIfid := by
    rw [add_assoc _ (entryCount (tick s).idex), entryCount_tick_frontEnd, entryCount_tick_memwb, entryCount_tick_exmem,
      ← add_assoc]
    obtain ⟨arch, pc⟩ := h.afterIfid
    rcases kept : fetchKept s
    · rw [complete_tick_of_not_kept hc kept]
      exact ⟨⟨arch.x, arch.dmem, arch.retired, arch.cfg⟩, pc⟩
    · obtain ⟨arch, pc⟩ := arch.seqStep pc
      rw [complete_tick_of_kept hc kept, if_pos rfl, seqSteps_succ_last]
      exact ⟨⟨arch.x, arch.dmem, arch.retired, arch.cfg⟩, pc⟩

theorem exists_stepsBehind_ticks {r s : State} {m : Nat} (hc : Consistent s) (h : StepsBehind r s m) (k : Nat) :
    ∃ m', StepsBehind r (ticks k s) m' := by
  induction k generalizing s m with
  | zero => exact ⟨m, h⟩
  | succ k ih => exact ih (consistent_tick hc) (stepsBehind_tick hc h)

theorem exists_stepsBehind_of_reset {cfg : RunConfig} (h : cfg.accepted = true) (k : Nat) :
    ∃ m, StepsBehind (State.resetWith cfg) (ticks k (State.resetWith cfg)) m :=
  exists_stepsBehind_ticks (consistent_resetWith h) (stepsBehind_resetWith cfg) k

/-- Settles O48: the committed state is that of as many reference steps as entries have left MEM/WB, and the memory that
of one step more while an entry is in it. -/
theorem pipelineCommitsTheReferenceResults : Obligations.PipelineCommitsTheReferenceResults := by
  intro cfg k hcfg
  obtain ⟨m, h⟩ := exists_stepsBehind_of_reset hcfg k
  refine ⟨m, sameRegisters_of_x h.registers, h.retired, fun bubble => ?_, fun entry => ?_⟩
  · exact sameMemory_of_dmem (h.memory (by simp [bubble]))
  · have one : entryCount (ticks k (State.resetWith cfg)).memwb = 1 := if_pos (Option.isSome_iff_ne_none.2 entry)
    have performed := h.afterMemwb.dmem
    rw [one] at performed
    exact sameMemory_of_dmem performed

/-! ## The two policies (R350) -/

/-- The same state under the other forwarding policy. -/
def State.withForwarding (b : Bool) (s : State) : State := { s with cfg := { s.cfg with forwarding := b } }

theorem resetWith_forwarding (cfg : RunConfig) (b : Bool) :
    State.resetWith { cfg with forwarding := b } = (State.resetWith cfg).withForwarding b := rfl

/-- The reference does not read the policy. -/
theorem seqStep_withForwarding (b : Bool) (s : State) :
    seqStep (s.withForwarding b) = (seqStep s).withForwarding b := by
  change seqRun (snapshot (fetchedWord s)) _ = State.withForwarding b (seqRun (snapshot (fetchedWord s)) s)
  unfold seqRun
  split <;> rfl

theorem seqSteps_withForwarding (b : Bool) (n : Nat) (s : State) :
    seqSteps n (s.withForwarding b) = (seqSteps n s).withForwarding b := by
  induction n generalizing s with
  | zero => rfl
  | succ n ih => rw [seqSteps_succ, seqSteps_succ, seqStep_withForwarding, ih]

/-- A reference step that is not counted skips an INVALID word. -/
theorem seqStep_cases (s : State) : (seqStep s).retired = s.retired + 1 ∨ seqStep s = s.skipInvalid := by
  unfold seqStep seqRun
  split
  · exact .inr rfl
  · exact .inl rfl

theorem retired_le_seqSteps (n : Nat) (s : State) : s.retired ≤ (seqSteps n s).retired := by
  induction n generalizing s with
  | zero => exact le_rfl
  | succ n ih =>
    refine le_trans ?_ (ih (seqStep s))
    obtain counted | skipped := seqStep_cases s
    · omega
    · rw [skipped, State.skipInvalid_retired]

/-- Reference steps that retire nothing change neither a register nor the memory. -/
theorem seqSteps_of_same_retired {n : Nat} {s : State} (h : (seqSteps n s).retired = s.retired) :
    (seqSteps n s).x = s.x ∧ (seqSteps n s).dmem = s.dmem := by
  induction n generalizing s with
  | zero => exact ⟨rfl, rfl⟩
  | succ n ih =>
    have mono := retired_le_seqSteps n (seqStep s)
    rw [seqSteps_succ] at h ⊢
    obtain counted | skipped := seqStep_cases s
    · omega
    · rw [skipped] at h ⊢
      exact ih h

theorem seqSteps_add (m n : Nat) (s : State) : seqSteps (m + n) s = seqSteps n (seqSteps m s) := by
  induction n with
  | zero => rfl
  | succ n ih => rw [← add_assoc, seqSteps_succ_last, ih, ← seqSteps_succ_last]

/-- Two runs of the reference from one state that retired as many instructions hold the same registers and memory. -/
theorem seqSteps_determined_by_retired {m n : Nat} {s : State} (h : (seqSteps m s).retired = (seqSteps n s).retired) :
    (seqSteps m s).x = (seqSteps n s).x ∧ (seqSteps m s).dmem = (seqSteps n s).dmem := by
  wlog le : m ≤ n generalizing m n
  · obtain ⟨x, dmem⟩ := this h.symm (by omega)
    exact ⟨x.symm, dmem.symm⟩
  · obtain ⟨k, rfl⟩ := Nat.exists_eq_add_of_le le
    rw [seqSteps_add] at h ⊢
    obtain ⟨x, dmem⟩ := seqSteps_of_same_retired h.symm
    exact ⟨x.symm, dmem.symm⟩

/-- Settles O49: both runs commit states of one reference run, which the retired count determines up to skipped
words. -/
theorem forwardingDoesNotChangeResults : Obligations.ForwardingDoesNotChangeResults := by
  intro cfg k₁ k₂ hcfg s₁ s₂ same_retired
  obtain ⟨m₁, h₁⟩ := exists_stepsBehind_of_reset (cfg := { cfg with forwarding := true }) hcfg k₁
  obtain ⟨m₂, h₂⟩ := exists_stepsBehind_of_reset (cfg := { cfg with forwarding := false }) hcfg k₂
  obtain ⟨x₁, retired₁, memory₁, -⟩ := h₁
  obtain ⟨x₂, retired₂, memory₂, -⟩ := h₂
  rw [resetWith_forwarding, seqSteps_withForwarding] at x₁ retired₁ memory₁ x₂ retired₂ memory₂
  obtain ⟨x, dmem⟩ := seqSteps_determined_by_retired (retired₁.symm.trans (same_retired.trans retired₂))
  refine ⟨sameRegisters_of_x ?_, fun no_store₁ no_store₂ => sameMemory_of_dmem ?_⟩
  · exact x₂.trans (x.symm.trans x₁.symm)
  · exact (memory₂ no_store₂).trans (dmem.symm.trans (memory₁ no_store₁).symm)

end Sys2Proof.Machine
end

section
/-! PROOFS. The simplest run: a word placed where the next tick fetches, with nothing in flight (R58, R184). -/

namespace Sys2Proof.Machine

open Sys2Proof.Claims

theorem getElem?_placeWord (imem : List Word) (k : Nat) (w : Word) : (placeWord imem k w)[k]? = some w := by
  induction k generalizing imem with
  | zero => cases imem <;> rfl
  | succ k ih => cases imem <;> exact ih _

theorem fetchedWord_withFetchWord (s : State) (w : Word) : fetchedWord (s.withFetchWord 32 w.toNat) = w := by
  have word : BitVec.ofNat 32 (w.toNat % 2 ^ 32) = w := by
    rw [Nat.mod_eq_of_lt w.isLt, BitVec.ofNat_toNat, BitVec.setWidth_eq]
  simp only [fetchedWord, ifetch, State.withFetchWord_imem, State.withFetchWord_pc, getElem?_placeWord, word]
  rfl

/-- With nothing but IF/ID in flight, completion is the run of its word at its own address. -/
theorem complete_of_only_ifid {s : State} {d : IfId} (hd : s.ifid = some d) (hx : s.idex = none) (hm : s.exmem = none)
    (hw : s.memwb = none) : complete s = seqRun (snapshot d.raw) { s with pc := d.pc, ifid := none } := by
  have back : completeMemwb s = s := by
    cases s
    simp_all [completeMemwb, writebackRegs, writebackRetired]
  have older : olderThanDecode s = s := by
    simp [olderThanDecode, olderThanExecute, back, completeExmem, completeIdex, hx, hm]
  rw [complete_of_some hd, older]

/-- With nothing in flight a tick only fetches. -/
theorem tick_sameArch_of_empty {s : State} (hm : s.exmem = none) (hw : s.memwb = none) : SameArch (tick s) s := by
  refine ⟨?_, ?_, ?_, rfl⟩
  · simp [writebackRegs, hw]
  · simp [memoryData, hm]
  · simp [writebackRetired, hw]

/-- Settles O44: the placed word is fetched and kept, and is then the only instruction in flight. -/
theorem stepRunsThePlacedInstruction : Obligations.StepRunsThePlacedInstruction := by
  intro s s' w i hi run
  have kept : fetchKept (s.withFetchWord 32 w.toNat) = true := fetchKept_of_empty rfl rfl rfl
  obtain ⟨filled, next_pc⟩ := tick_of_fetchKept kept
  rw [fetchedWord_withFetchWord] at filled
  refine ⟨tick (s.withFetchWord 32 w.toNat), rfl, filled, next_pc, ?_⟩
  rw [complete_of_only_ifid filled rfl rfl rfl, ← seqRun_of_decode hi run]
  have same : SameArch (tick (s.withFetchWord 32 w.toNat)) (s.withFetchWord 32 w.toNat) :=
    tick_sameArch_of_empty rfl rfl
  obtain ⟨arch, pc⟩ := same.seqRun (snapshot w) s.pc
    (u' := { tick (s.withFetchWord 32 w.toNat) with pc := s.pc, ifid := none })
    ⟨rfl, rfl, rfl, rfl, rfl⟩ ⟨rfl, rfl, rfl, rfl, rfl⟩
  refine SameArch.eq ⟨arch.x, arch.dmem, arch.retired, arch.cfg⟩ pc ?_ ?_ ?_ ?_ ?_
  all_goals simp [decodeStage, executeStage, memoryStage]

end Sys2Proof.Machine
end

section
/-! PROOFS. How long a stall lasts (R352, R361, R363): a stalled Decode lets the back end drain, and what is not in
flight stalls nothing. -/

namespace Sys2Proof.Machine

open Sys2Proof.Claims

/-! ## What a bubble does not produce -/

theorem idexProduces_of_empty {s : State} (h : s.idex = none) (r : Reg) : s.idexProduces r = false := by
  simp [State.idexProduces, h]

theorem exmemProduces_of_empty {s : State} (h : s.exmem = none) (r : Reg) : s.exmemProduces r = false := by
  simp [State.exmemProduces, h]

theorem memwbProduces_of_empty {s : State} (h : s.memwb = none) (r : Reg) : s.memwbProduces r = false := by
  simp [State.memwbProduces, h]

theorem idexLoads_of_empty {s : State} (h : s.idex = none) (r : Reg) : s.idexLoads r = false := by
  simp [State.idexLoads, h]

theorem exmemLoads_of_empty {s : State} (h : s.exmem = none) (r : Reg) : s.exmemLoads r = false := by
  simp [State.exmemLoads, h]

theorem tick_exmem_of_empty {s : State} (h : s.idex = none) : (tick s).exmem = none := by simp [executeStage, h]

theorem tick_memwb_of_empty {s : State} (h : s.exmem = none) : (tick s).memwb = none := by simp [memoryStage, h]

/-! ## A decode stall, cycle by cycle -/

theorem decodeStall_of_forwarding {s : State} (h : s.cfg.forwarding = true) (i : Snapshot) :
    decodeStall i s = (loadUse i s || controlFlowWait i s) := if_pos h

theorem decodeStall_of_no_forwarding {s : State} (h : s.cfg.forwarding = false) (i : Snapshot) :
    decodeStall i s = decodeStallNoFwd i s := if_neg (Bool.eq_false_iff.1 h)

/-- With forwarding and ID/EX empty, only control flow waits, and only on a load in EX/MEM. -/
theorem decodeStall_of_idex_empty {s : State} (hf : s.cfg.forwarding = true) (h : s.idex = none) (i : Snapshot) :
    decodeStall i s = (isControlFlow i && (hazardSources i).any fun r => s.exmemLoads r) := by
  simp [decodeStall_of_forwarding hf, loadUse, controlFlowWait, idexLoads_of_empty h, idexProduces_of_empty h]

/-- A drained back end stalls no instruction; with forwarding MEM/WB may still hold one. -/
theorem decodeStalled_of_drained {s : State} (hx : s.idex = none) (hm : s.exmem = none)
    (hw : s.cfg.forwarding = false → s.memwb = none) : decodeStalled s = false := by
  rcases hd : s.ifid with _ | d
  · exact decodeStalled_of_empty hd
  · rw [decodeStalled_eq_of_ifid hd]
    rcases hf : s.cfg.forwarding
    · simp [decodeStall_of_no_forwarding hf, decodeStallNoFwd, idexProduces_of_empty hx, exmemProduces_of_empty hm,
        memwbProduces_of_empty (hw hf)]
    · simp [decodeStall_of_idex_empty hf hx, exmemLoads_of_empty hm]

/-- After two stalled cycles nothing is left in ID/EX and EX/MEM. -/
theorem drained_of_two_stalls {s : State} (h₀ : decodeStalled s = true) (h₁ : decodeStalled (tick s) = true) :
    (ticks 2 s).idex = none ∧ (ticks 2 s).exmem = none :=
  ⟨tick_idex_of_stalled h₁, tick_exmem_of_empty (tick_idex_of_stalled h₀)⟩

/-- After three, nothing is left in MEM/WB either. -/
theorem drained_of_three_stalls {s : State} (h₀ : decodeStalled s = true) (h₁ : decodeStalled (tick s) = true)
    (h₂ : decodeStalled (ticks 2 s) = true) :
    (ticks 3 s).idex = none ∧ (ticks 3 s).exmem = none ∧ (ticks 3 s).memwb = none := by
  obtain ⟨hx, hm⟩ := drained_of_two_stalls h₀ h₁
  exact ⟨tick_idex_of_stalled h₂, tick_exmem_of_empty hx, tick_memwb_of_empty hm⟩

theorem not_stalled_after_two {s : State} (hf : s.cfg.forwarding = true) (h₀ : decodeStalled s = true)
    (h₁ : decodeStalled (tick s) = true) : decodeStalled (ticks 2 s) = false := by
  obtain ⟨hx, hm⟩ := drained_of_two_stalls h₀ h₁
  refine decodeStalled_of_drained hx hm fun no_forwarding => ?_
  rw [show (ticks 2 s).cfg = s.cfg from rfl, hf] at no_forwarding
  cases no_forwarding

theorem not_stalled_after_three {s : State} (h₀ : decodeStalled s = true) (h₁ : decodeStalled (tick s) = true)
    (h₂ : decodeStalled (ticks 2 s) = true) : decodeStalled (ticks 3 s) = false := by
  obtain ⟨hx, hm, hw⟩ := drained_of_three_stalls h₀ h₁ h₂
  exact decodeStalled_of_drained hx hm fun _ => hw

/-- Settles O41: each stalled cycle empties one more register behind Decode. -/
theorem decodeStallsAreBounded : Obligations.DecodeStallsAreBounded := fun _ =>
  ⟨not_stalled_after_three, not_stalled_after_two⟩

/-! ## A consumer right behind its producer (R352) -/

section Adjacent

variable {s : State} {d : IfId} {e : IdEx} {r : Reg}

theorem idexProduces_of_some (he : s.idex = some e) (r : Reg) : s.idexProduces r = produces e.instr e.ctrl r := by
  simp [State.idexProduces, he]

theorem idexLoads_of_some (he : s.idex = some e) (r : Reg) :
    s.idexLoads r = (produces e.instr e.ctrl r && e.ctrl.memoryRead) := by
  simp [State.idexLoads, producesLoad, he]

/-- The next cycle's stall with forwarding: control flow behind a load. -/
theorem decodeStalled_tick_of_forwarding (hd : s.ifid = some d) (hf : s.cfg.forwarding = true)
    (stalled : decodeStalled s = true) : decodeStalled (tick s)
      = (isControlFlow (snapshot d.raw) && (hazardSources (snapshot d.raw)).any fun r => s.idexLoads r) := by
  obtain ⟨bubble, same_ifid, -⟩ := tick_of_decodeStalled stalled
  rw [decodeStalled_eq_of_ifid (same_ifid.trans hd), decodeStall_of_idex_empty (s := tick s) hf bubble]
  simp

theorem any_idexLoads_of_produces (he : s.idex = some e) (hr : r ∈ hazardSources (snapshot d.raw))
    (hp : produces e.instr e.ctrl r = true) (load : e.ctrl.memoryRead = true) :
    ((hazardSources (snapshot d.raw)).any fun r => s.idexLoads r) = true :=
  List.any_eq_true.2 ⟨r, hr, by simp [idexLoads_of_some he, hp, load]⟩

theorem decodeStalled_of_load (hd : s.ifid = some d) (he : s.idex = some e) (hr : r ∈ hazardSources (snapshot d.raw))
    (hp : produces e.instr e.ctrl r = true) (hf : s.cfg.forwarding = true) (load : e.ctrl.memoryRead = true) :
    decodeStalled s = true := by
  rw [decodeStalled_eq_of_ifid hd, decodeStall_of_forwarding hf, loadUse, any_idexLoads_of_produces he hr hp load,
    Bool.true_or]

theorem decodeStalled_of_controlFlow (hd : s.ifid = some d) (he : s.idex = some e)
    (hr : r ∈ hazardSources (snapshot d.raw)) (hp : produces e.instr e.ctrl r = true) (hf : s.cfg.forwarding = true)
    (hcf : isControlFlow (snapshot d.raw) = true) : decodeStalled s = true := by
  have waits : ((hazardSources (snapshot d.raw)).any fun r => s.idexProduces r || s.exmemLoads r) = true :=
    List.any_eq_true.2 ⟨r, hr, by simp [idexProduces_of_some he, hp]⟩
  rw [decodeStalled_eq_of_ifid hd, decodeStall_of_forwarding hf, controlFlowWait, hcf, waits]
  simp

theorem decodeStalled_of_producer (hd : s.ifid = some d) (hr : r ∈ hazardSources (snapshot d.raw))
    (hf : s.cfg.forwarding = false)
    (hp : s.idexProduces r = true ∨ s.exmemProduces r = true ∨ s.memwbProduces r = true) : decodeStalled s = true := by
  rw [decodeStalled_eq_of_ifid hd, decodeStall_of_no_forwarding hf]
  exact List.any_eq_true.2 ⟨r, hr, by simpa [or_assoc] using hp⟩

/-- Without forwarding the consumer waits while its producer moves through ID/EX, EX/MEM and MEM/WB. -/
theorem three_stalls_of_no_forwarding (hd : s.ifid = some d) (hr : r ∈ hazardSources (snapshot d.raw))
    (hp : s.idexProduces r = true) (hf : s.cfg.forwarding = false) :
    decodeStalled s = true ∧ decodeStalled (tick s) = true ∧ decodeStalled (ticks 2 s) = true := by
  have h₀ := decodeStalled_of_producer hd hr hf (.inl hp)
  have hd₁ := (tick_of_decodeStalled h₀).2.1.trans hd
  have h₁ := decodeStalled_of_producer (s := tick s) hd₁ hr hf (.inr (.inl (by simpa using hp)))
  have hd₂ := (tick_of_decodeStalled h₁).2.1.trans hd₁
  exact ⟨h₀, h₁, decodeStalled_of_producer (s := tick (tick s)) hd₂ hr hf (.inr (.inr (by simpa using hp)))⟩

end Adjacent

/-- Settles O28: the producer's kind and the policy say in which of the next cycles it is still waited for. -/
theorem stallCyclesOfAdjacentDependence : Obligations.StallCyclesOfAdjacentDependence := by
  intro s d e r hd he hr hp
  refine ⟨fun hf load ordinary => ?_, fun hf no_load hcf => ?_, fun hf load hcf => ?_, fun hf => ?_⟩
  · have stalled := decodeStalled_of_load hd he hr hp hf load
    refine ⟨stalled, ?_⟩
    rw [decodeStalled_tick_of_forwarding hd hf stalled, ordinary, Bool.false_and]
  · have stalled := decodeStalled_of_controlFlow hd he hr hp hf hcf
    refine ⟨stalled, ?_⟩
    simp [decodeStalled_tick_of_forwarding hd hf stalled, idexLoads_of_some he, no_load]
  · have stalled := decodeStalled_of_load hd he hr hp hf load
    have again : decodeStalled (tick s) = true := by
      rw [decodeStalled_tick_of_forwarding hd hf stalled, hcf, any_idexLoads_of_produces he hr hp load, Bool.and_true]
    exact ⟨stalled, again, not_stalled_after_two hf stalled again⟩
  · obtain ⟨h₀, h₁, h₂⟩ := three_stalls_of_no_forwarding hd hr ((idexProduces_of_some he r).trans hp) hf
    exact ⟨h₀, h₁, h₂, not_stalled_after_three h₀ h₁ h₂⟩

/-! ## A fetch stall (R148) -/

theorem fetchStalled_of_drained {s : State} (hx : s.idex = none) (hw : s.memwb = none) : fetchStalled s = false := by
  simp [fetchStalled, fetchStall, State.idexLoads, State.memwbLoads, hx, hw]

/-- Settles O42: the first stalled fetch leaves IF/ID empty, and three cycles later nothing is in flight that a fetch
waits for. -/
theorem fetchStallsAreBounded : Obligations.FetchStallsAreBounded := by
  intro s h
  have empty₁ : (tick s).ifid = none := (tick_of_fetchStalled (h 0 (by decide)).1 (h 0 (by decide)).2).1
  have empty₃ : (ticks 3 s).ifid = none := (tick_of_fetchStalled (h 2 (by decide)).1 (h 2 (by decide)).2).1
  exact fetchStalled_of_drained (tick_idex_of_empty empty₃)
    (tick_memwb_of_empty (tick_exmem_of_empty (tick_idex_of_empty empty₁)))

/-! ## No deadlock (R363) -/

/-- A fetch is kept in one of the next `n` cycles. -/
def KeepsWithin (n : Nat) (s : State) : Prop := ∃ k < n, fetchKept (ticks k s) = true

theorem KeepsWithin.mono {m n : Nat} {s : State} (h : KeepsWithin m s) (le : m ≤ n) : KeepsWithin n s := by
  obtain ⟨k, lt, kept⟩ := h
  exact ⟨k, lt_of_lt_of_le lt le, kept⟩

theorem KeepsWithin.of_tick {n : Nat} {s : State} (h : KeepsWithin n (tick s)) : KeepsWithin (n + 1) s := by
  obtain ⟨k, lt, kept⟩ := h
  exact ⟨k + 1, by omega, kept⟩

/-- Where Decode does not stall, the fetch is kept now or leaves IF/ID empty. -/
theorem keepsWithin_of_not_stalled {n : Nat} {s : State} (hn : decodeStalled s = false)
    (h : (tick s).ifid = none → KeepsWithin n (tick s)) : KeepsWithin (n + 1) s := by
  rcases kept : fetchKept s
  · refine (h ?_).of_tick
    obtain ⟨target, hr⟩ | stalled | ⟨hr, hf⟩ := not_fetchKept_cases kept
    · exact (tick_of_redirect hr).1
    · rw [hn] at stalled
      cases stalled
    · exact (tick_of_fetchStalled hf hr).1
  · exact ⟨0, Nat.succ_pos n, kept⟩

theorem keepsWithin_one_of_no_forwarding {s : State} (hf : s.cfg.forwarding = false) (hd : s.ifid = none) :
    KeepsWithin 1 s := by
  refine ⟨0, Nat.one_pos, (fetchKept_iff s).2 ⟨decodeStalled_of_empty hd, decodeRedirect_of_empty hd, ?_⟩⟩
  simp [fetchStalled, fetchStall, hf]

theorem keepsWithin_two_of_ifid_exmem_empty {s : State} (hd : s.ifid = none) (hm : s.exmem = none) :
    KeepsWithin 2 s :=
  keepsWithin_of_not_stalled (decodeStalled_of_empty hd) fun hd' =>
    ⟨0, Nat.one_pos, fetchKept_of_empty hd' (tick_idex_of_empty hd) (tick_memwb_of_empty hm)⟩

theorem keepsWithin_three_of_idex_empty {s : State} (hn : decodeStalled s = false) (hx : s.idex = none) :
    KeepsWithin 3 s :=
  keepsWithin_of_not_stalled hn fun hd => keepsWithin_two_of_ifid_exmem_empty hd (tick_exmem_of_empty hx)

theorem keepsWithin_four_of_ifid_empty {s : State} (hd : s.ifid = none) : KeepsWithin 4 s :=
  keepsWithin_of_not_stalled (decodeStalled_of_empty hd) fun hd' =>
    keepsWithin_three_of_idex_empty (decodeStalled_of_empty hd') (tick_idex_of_empty hd)

/-- Settles O43: after `j` stalls of Decode, `j` being 0 to 3, the bubbles behind it let a fetch through in time. -/
theorem fetchSucceedsWithinFiveCycles : Obligations.FetchSucceedsWithinFiveCycles := by
  intro s
  rcases h₀ : decodeStalled s
  · exact keepsWithin_of_not_stalled h₀ keepsWithin_four_of_ifid_empty
  · rcases h₁ : decodeStalled (tick s)
    · exact (keepsWithin_three_of_idex_empty h₁ (tick_idex_of_stalled h₀)).of_tick.mono (by decide)
    · rcases h₂ : decodeStalled (tick (tick s))
      · exact (keepsWithin_three_of_idex_empty h₂ (tick_idex_of_stalled h₁)).of_tick.of_tick
      · have no_forwarding : s.cfg.forwarding = false := by
          by_contra forwarding
          have h₂' := not_stalled_after_two (Bool.not_eq_false _ ▸ forwarding) h₀ h₁
          rw [ticks_succ, ticks_succ, ticks_zero, h₂] at h₂'
          cases h₂'
        exact (keepsWithin_of_not_stalled (not_stalled_after_three h₀ h₁ h₂)
          (keepsWithin_one_of_no_forwarding no_forwarding)).of_tick.of_tick.of_tick

end Sys2Proof.Machine
end

section
/-! PROOFS. One tick, stage by stage (R172 to R186): when nothing stalls, where control goes, what each stage hands on,
and the bytes a store writes. -/

namespace Sys2Proof.Machine

open Sys2Proof.Claims

/-! ## Fetch (R180 to R184) -/

theorem fetchStalled_of_not_stalled {s : State} (hn : decodeStalled s = false) :
    fetchStalled s = fetchStall (snapshot (ifetch s.cfg.imem s.pc)) s := by
  simp [fetchStalled, fetchedWord, hn]

/-- Settles O30: the four rows of R184 are the four ways a fetch can end. -/
theorem programCounterPriority : Obligations.ProgramCounterPriority := by
  refine fun s => ⟨tick s, rfl, fun target hr => ?_, fun _ hs => ?_, fun hr hn hf => ?_, fun hr hn hf => ?_⟩
  · exact (tick_of_redirect hr).symm
  · exact (tick_of_decodeStalled hs).2.symm
  · exact (tick_of_fetchStalled ((fetchStalled_of_not_stalled hn).trans hf) hr).symm
  · exact (tick_of_fetchKept ((fetchKept_iff s).2 ⟨hn, hr, (fetchStalled_of_not_stalled hn).trans hf⟩)).symm

/-- Without a hazard source there is nothing to wait for (R147, R148). -/
theorem stall_of_no_hazardSource {i : Snapshot} (h : hazardSources i = []) (s : State) :
    decodeStall i s = false ∧ fetchStall i s = false := by
  simp [decodeStall, loadUse, controlFlowWait, decodeStallNoFwd, fetchStall, h]

theorem hazardSources_eq_nil_of_fmt {i : Snapshot} (h : i.fmt = .u ∨ i.fmt = .j ∨ i.fmt = .none) :
    hazardSources i = [] := by
  rw [hazardSources, sources_eq_nil_of_fmt h]
  rfl

/-- Settles O27: every stall asks for a hazard source, and these formats have no source at all. -/
theorem noHazardSourceMeansNoStall : Obligations.NoHazardSourceMeansNoStall := fun _ s =>
  ⟨fun h => stall_of_no_hazardSource h s, hazardSources_eq_nil_of_fmt⟩

/-! ## The redirect (R179) -/

theorem resolve_of_invalid {i : Snapshot} (h : i.instr = none) (pc a b : Word) : resolve i pc a b = none := by
  simp [resolve, controlSignals_none h, Ctrl.off]

/-- Where an instruction sends control, in terms of its operands as numbers. -/
def resolvedTarget (i : Instr) (pc a b : Word) : Option Word :=
  match i with
  | .beq _ _ imm => if a = b then some (pc + imm) else none
  | .bne _ _ imm => if a = b then none else some (pc + imm)
  | .blt _ _ imm => if a.toInt < b.toInt then some (pc + imm) else none
  | .bge _ _ imm => if b.toInt ≤ a.toInt then some (pc + imm) else none
  | .bltu _ _ imm => if a.toNat < b.toNat then some (pc + imm) else none
  | .bgeu _ _ imm => if b.toNat ≤ a.toNat then some (pc + imm) else none
  | .jal _ imm => some (pc + imm)
  | .jalr _ _ imm => some ((a + imm) &&& 0xFFFFFFFE#32)
  | _ => none

theorem resolve_eq_resolvedTarget (raw : Word) (i : Instr) (pc a b : Word) :
    resolve { raw := raw, instr := some i } pc a b = resolvedTarget i pc a b := by
  cases i with
  | beq | bne | blt | bge | bltu | bgeu =>
    simp [resolve, controlSignals, controlRow, ctrlBranch, branchCond, resolvedTarget, relativeTarget, Snapshot.imm,
      Instr.imm, BitVec.slt, BitVec.ult]
  | _ => rfl

theorem snapshot_of_decode {w : Word} {i : Instr} (h : decode w = .ok i) :
    snapshot w = { raw := w, instr := some i } := by
  rw [snapshot, decodeInstr_of_ok h]

/-- The operand of a source field in Decode: forwarded or not, of the register file after Writeback (R153). -/
def decodeOperand (s : State) (r : Option Reg) : Word :=
  if s.cfg.forwarding then forwardValue r (latchOperand (writebackRegs s) r) s else latchOperand (writebackRegs s) r

theorem resolveOperands_eq (d : IfId) (s : State) : resolveOperands d s
    = (decodeOperand s (snapshot d.raw).rs1, decodeOperand s (snapshot d.raw).rs2) := by
  unfold resolveOperands decodeOperands decodeOperand
  split <;> rfl

/-- Settles O31: a redirect is resolved from an instruction in IF/ID that does not stall, and only there. -/
theorem redirectsOfDecode : Obligations.RedirectsOfDecode := by
  refine ⟨fun _ => decodeRedirect_of_empty, fun s d r hd hr => ?_, fun s d i hd hi =>
    ⟨decodeRedirect_of_stalled, fun hn => ?_⟩⟩
  · rcases hn : decodeStalled s
    · rw [decodeRedirect_of_not_stalled hd hn, resolve_of_invalid (decodeInstr_of_error hr)]
    · exact decodeRedirect_of_stalled hn
  · rw [decodeRedirect_of_not_stalled hd hn, resolveOperands_eq, snapshot_of_decode hi, resolve_eq_resolvedTarget]
    cases i <;> rfl

/-! ## Writeback and Decode (R172, R173, R178) -/

theorem retireCount_eq (i : Snapshot) : retireCount i = if i.instr = none then 0 else 1 := by
  rcases h : i.instr with _ | _ <;> simp [retireCount, h]

/-- Settles O33: only Writeback counts, and it counts its entry unless that is INVALID. -/
theorem retiredCountsDefinedInstructions : Obligations.RetiredCountsDefinedInstructions := by
  refine fun s => ⟨tick s, rfl, ?_⟩
  rw [tick_retired, writebackRetired]
  rcases hw : s.memwb with _ | w
  · simp
  · simp [retireCount, Option.isSome_iff_ne_none]

/-- Settles O38: ID/EX receives a bubble, or the entry latched from the register file that the next state holds. -/
theorem decodeReadsAfterWriteback : Obligations.DecodeReadsAfterWriteback := by
  refine ⟨fun s bubble => ⟨tick s, rfl, bubble.elim tick_idex_of_empty tick_idex_of_stalled⟩, fun s d hd hn =>
    ⟨tick s, decodeEntry d (writebackRegs s), rfl, tick_idex_of_not_stalled hd hn, rfl, rfl, rfl, rfl, fun r hr => ?_,
      fun r hr => ?_⟩⟩
  · rw [decodeEntry, hr]
    rfl
  · rw [decodeEntry, hr]
    rfl

/-! ## Execute (R176) -/

theorem tick_exmem_of_some {s : State} {e : IdEx} (h : s.idex = some e) :
    (tick s).exmem = some (e.execute (exOperands e s).1 (exOperands e s).2) := by
  simp [executeStage, h]

/-- Settles O37: the policy selects the operands, the entry's signals the rest. -/
theorem executeStageFillsExmem : Obligations.ExecuteStageFillsExmem := by
  refine fun s => ⟨tick s, rfl, tick_exmem_of_empty, fun e he => ?_⟩
  rw [tick_exmem_of_some he]
  rcases hf : s.cfg.forwarding
  · rw [exOperands_of_no_forwarding e hf]
    rfl
  · rw [exOperands_of_forwarding e hf]
    rfl

/-! ## Memory (R175) -/

theorem tick_memwb_of_some {s : State} {m : ExMem} (h : s.exmem = some m) :
    (tick s).memwb = some (m.access s.cfg.dmemSize s.dmem) := by
  simp [memoryStage, h]

/-- Settles O36: the entry moves on, with what its own access reads of the memory before the tick. -/
theorem memoryStageFillsMemwb : Obligations.MemoryStageFillsMemwb := fun s =>
  ⟨tick s, rfl, tick_memwb_of_empty, fun _ hm => ⟨_, tick_memwb_of_some hm, rfl, rfl, rfl, rfl,
    fun load => if_pos load, fun no_load => if_neg (Bool.eq_false_iff.1 no_load)⟩⟩

theorem memoryData_of_store {s : State} {m : ExMem} (hm : s.exmem = some m) (store : m.ctrl.memoryWrite = true) :
    memoryData s = memWrite s.cfg.dmemSize s.dmem m.aluResult (accessWidth m.instr) m.rs2Value := by
  simp [memoryData, ExMem.storeTo, hm, store]

/-- The access request and the stage agree (R42): a store writes what is asked for, and nothing else does. -/
theorem memoryData_eq_request (s : State) : memoryData s = if (dmemRequest s).writeEnable
    then memWrite s.cfg.dmemSize s.dmem (dmemRequest s).addr (dmemRequest s).width (dmemRequest s).wdata
    else s.dmem := by
  unfold memoryData dmemRequest ExMem.storeTo
  rcases s.exmem with _ | m <;> rfl

/-- Settles O52: the request shows EX/MEM's entry, and `imem_data` is the fetched word. -/
theorem blockOutputsDriveTheTick : Obligations.BlockOutputsDriveTheTick := by
  refine fun s => ⟨tick s, rfl, memoryData_eq_request s, fun m hm load => ⟨_, tick_memwb_of_some hm, ?_⟩,
    fun kept => (tick_of_fetchKept kept).1, wordIndex_toNat s.pc, rfl, rfl⟩
  simp only [dmemRequest, dmemRdata, hm] at load ⊢
  exact if_pos load

/-- Settles O35: the memory after a tick is the one before with EX/MEM's store, if there is one. -/
theorem onlyTheStoreInMemoryChangesMemory : Obligations.OnlyTheStoreInMemoryChangesMemory := by
  refine fun s wf => ⟨tick s, rfl, fun m hm store a => ?_, fun no_store => ?_⟩
  · rw [tick_dmem, memoryData_of_store hm store]
    exact readByte_memWrite wf ..
  · exact sameMemory_of_dmem (memoryData_of_no_store no_store)

/-! ## An entry's way down the pipeline (R187) -/

/-- Settles O40: Execute and Memory hand on every entry, and Writeback counts it unless it is INVALID. -/
theorem threeTicksFromDecodeToRetirement : Obligations.ThreeTicksFromDecodeToRetirement := by
  intro s e he
  have exmem := tick_exmem_of_some he
  have memwb := tick_memwb_of_some exmem
  refine ⟨⟨_, exmem, rfl, rfl, rfl⟩, ⟨_, memwb, rfl, rfl, rfl⟩, ?_⟩
  change writebackRetired (tick (tick s)) = _
  rw [writebackRetired, memwb]
  exact congrArg _ (retireCount_eq e.instr)

/-- Settles O39: INVALID decodes to no signal and no field, so each stage hands it on and does nothing else. -/
theorem invalidFlowsThroughAsANoOp : Obligations.InvalidFlowsThroughAsANoOp := by
  intro w r hr
  have invalid : (snapshot w).instr = none := decodeInstr_of_error hr
  have off := controlSignals_none invalid
  have no_rd : (snapshot w).rd = none := by simp [Snapshot.rd, invalid]
  have no_field : (snapshot w).fmt = .u ∨ (snapshot w).fmt = .j ∨ (snapshot w).fmt = .none :=
    .inr (.inr (fmt_none_of_instr_none invalid))
  refine ⟨off, sources_eq_nil_of_fmt no_field, fun c q => produces_eq_false_of_no_write (.inr no_rd) q,
    fun s => ⟨tick s, rfl, ?_, ?_, ?_, ?_⟩⟩
  · rintro d hd rfl
    have hn : decodeStalled s = false := by
      rw [decodeStalled_eq_of_ifid hd]
      exact (stall_of_no_hazardSource (hazardSources_eq_nil_of_fmt no_field) s).1
    exact ⟨_, tick_idex_of_not_stalled hd hn, rfl, off⟩
  · intro e he hi hc
    exact ⟨_, tick_exmem_of_some he, hi, hc⟩
  · intro m hm hi hc
    have no_store : memoryData s = s.dmem := memoryData_of_no_store (by simp [hm, hc, Ctrl.off])
    exact ⟨sameMemory_of_dmem no_store, _, tick_memwb_of_some hm, hi, hc⟩
  · intro v hv hi hc
    refine ⟨tick_sameRegisters (by simp [hv, hc, Ctrl.off]), ?_⟩
    simp [writebackRetired, retireCount, hv, hi, invalid]

end Sys2Proof.Machine
end

section
/-! PROOFS. The control table (R123), reset (R41, R342) and the start of a run (R343), and the transient flags (R30). -/

namespace Sys2Proof.Machine

open Sys2Proof.Claims

/-! ## The control table (R123) -/

/-- The class of each row (R122): one that writes rd, the stores, and the branches. -/
theorem controlRow_cases (j : Instr) :
    (j.rd.isSome = true ∧ ¬ (j.fmt = .s ∨ j.fmt = .b ∨ j.fmt = .none)
      ∧ ((∃ op, controlRow j = ctrlRegReg op) ∨ (∃ op, controlRow j = ctrlRegImm op)
        ∨ controlRow j = ctrlLoad ∨ controlRow j = ctrlJump))
    ∨ (j.fmt = .s ∧ controlRow j = ctrlStore)
    ∨ (j.fmt = .b ∧ ∃ op, controlRow j = ctrlBranch op) := by
  cases j with
  | add | sub | sll | slt | sltu | xor | srl | sra | or | and => exact .inl ⟨rfl, by simp [Instr.fmt], .inl ⟨_, rfl⟩⟩
  | addi | slti | sltiu | xori | ori | andi | slli | srli | srai | lui | auipc =>
    exact .inl ⟨rfl, by simp [Instr.fmt], .inr (.inl ⟨_, rfl⟩)⟩
  | lb | lh | lw | lbu | lhu => exact .inl ⟨rfl, by simp [Instr.fmt], .inr (.inr (.inl rfl))⟩
  | jalr | jal => exact .inl ⟨rfl, by simp [Instr.fmt], .inr (.inr (.inr rfl))⟩
  | sb | sh | sw => exact .inr (.inl ⟨rfl, rfl⟩)
  | beq | bne | blt | bge | bltu | bgeu => exact .inr (.inr ⟨rfl, _, rfl⟩)

theorem views_of_instr {i : Snapshot} {j : Instr} (h : i.instr = some j) :
    i.rd = j.rd ∧ i.fmt = j.fmt ∧ controlSignals i = controlRow j := by
  simp [Snapshot.rd, Snapshot.fmt, controlSignals, h]

/-- Settles O23: by the class of the instruction's row, or for INVALID, which sets nothing. -/
theorem controlTableInvariants : Obligations.ControlTableInvariants := by
  intro i c
  rcases hi : i.instr with _ | j
  · simp [c, controlSignals_none hi, fmt_none_of_instr_none hi, Ctrl.off, signalsSet]
  · obtain ⟨rd, fmt, row⟩ := views_of_instr hi
    simp only [c, rd, fmt, row]
    obtain ⟨has_rd, hf, ⟨op, hr⟩ | ⟨op, hr⟩ | hr | hr⟩ | ⟨hf, hr⟩ | ⟨hf, op, hr⟩ := controlRow_cases j
    · simp [hr, hf, has_rd, ctrlRegReg, Ctrl.off, signalsSet]
    · simp [hr, hf, has_rd, ctrlRegImm, Ctrl.off, signalsSet]
    · simp [hr, hf, has_rd, ctrlLoad, Ctrl.off, signalsSet]
    · simp [hr, hf, has_rd, ctrlJump, Ctrl.off, signalsSet]
    · simp [hr, hf, ctrlStore, Ctrl.off, signalsSet]
    · simp [hr, hf, ctrlBranch, Ctrl.off, signalsSet]

/-! ## Reset and the start of a run (R41, R342, R343) -/

theorem readReg_resetWith (cfg : RunConfig) (r : Reg) : (State.resetWith cfg).readReg r = 0#32 := by
  simp [State.readReg, regRead]

/-- Settles O50: the fields of the reset state. -/
theorem resetLeavesTheListedValues : Obligations.ResetLeavesTheListedValues := fun cfg =>
  ⟨readReg_resetWith cfg, rfl, rfl, rfl, rfl, rfl, rfl, rfl, rfl, rfl, rfl⟩

theorem boot_of_accepted {cfg : RunConfig} (h : cfg.accepted = true) : boot cfg = .next (State.resetWith cfg) := by
  obtain ⟨size, words, wf, within⟩ := (accepted_iff cfg).1 h
  rw [boot, if_neg (by omega), if_neg (by omega), if_pos (by simp [wf, within])]

theorem boot_of_large_memory {cfg : RunConfig} (h : 2 ^ 31 < cfg.dmemSize) : boot cfg = .refused .dataMemoryTooLarge :=
  if_pos h

theorem boot_of_long_image {cfg : RunConfig} (size : cfg.dmemSize ≤ 2 ^ 31) (h : 2 ^ 30 < cfg.imem.length) :
    boot cfg = .refused .imageTooLong := by
  rw [boot, if_neg (by omega), if_pos h]

theorem boot_of_malformed_memory {cfg : RunConfig} (size : cfg.dmemSize ≤ 2 ^ 31) (words : cfg.imem.length ≤ 2 ^ 30)
    (h : cfg.dmemInit.wf = false ∨ cfg.dmemInit.within cfg.dmemSize = false) :
    boot cfg = .refused .dataMemoryInitMalformed := by
  rw [boot, if_neg (by omega), if_neg (by omega), if_neg]
  obtain h | h := h <;> simp [h]

/-- Settles O51: an edge is the reset or the tick, and the start asks R8's constraints one by one. -/
theorem resetEdgeAndBoot : Obligations.ResetEdgeAndBoot :=
  ⟨fun _ => ⟨rfl, rfl⟩, fun _ => ⟨boot_of_accepted, boot_of_large_memory, boot_of_long_image, boot_of_malformed_memory⟩⟩

/-! ## The transient flags (R30) -/

/-- Settles O53: a word is zero or negative as its number is. -/
theorem aluFlagsOfAResult : Obligations.AluFlagsOfAResult := by
  refine fun r => ⟨?_, ?_⟩
  · simp [aluFlags, ← BitVec.toNat_inj]
  · simp [aluFlags, BitVec.msb_eq_toInt]

end Sys2Proof.Machine
end

section
/-! PROOFS. What each instruction does, run alone (R210 to R300): result, completion and frame in integers, and what an
instruction may change and read. -/

namespace Sys2Proof.Machine

open Sys2Proof.Claims

/-! ## The three updates a meaning is made of (R188) -/

theorem samePipeline_writeAndRetire (s : State) (rd : Reg) (v npc : Word) :
    SamePipeline s (s.writeAndRetire rd v npc) :=
  ⟨rfl, rfl, rfl, rfl, rfl, rfl⟩

theorem samePipeline_store (s : State) (addr : Word) (n : Width) (v : Word) : SamePipeline s (s.store addr n v) :=
  ⟨rfl, rfl, rfl, rfl, rfl, rfl⟩

theorem samePipeline_branchIf (s : State) (c : Bool) (imm : Word) : SamePipeline s (s.branchIf c imm) :=
  ⟨rfl, rfl, rfl, rfl, rfl, rfl⟩

theorem writesRegister_of_exec {i : Instr} {s : State} {rd : Reg} {v npc v' npc' : Word}
    (h : exec i s = .next (s.writeAndRetire rd v npc)) (hv : v = v') (hn : npc = npc') :
    WritesRegister i s rd v' npc' := by
  subst hv hn
  exact ⟨_, h, fun r => regRead_regWrite s.x rd r v, rfl, rfl, fun _ => rfl, samePipeline_writeAndRetire ..⟩

theorem onlyTransfers_of_exec {i : Instr} {s : State} {c : Bool} {imm npc : Word}
    (h : exec i s = .next (s.branchIf c imm)) (hn : (if c then s.pc + imm else s.pc + 4#32) = npc) :
    OnlyTransfers i s npc :=
  ⟨_, h, fun _ => rfl, hn, rfl, fun _ => rfl, samePipeline_branchIf ..⟩

theorem storesBytes_of_exec {i : Instr} {s : State} {ea v : Word} {n : Width} (wf : s.dmem.wf = true)
    (h : exec i s = .next (s.store ea n v)) : StoresBytes i s ea n.bytes v :=
  ⟨_, h, readByte_memWrite wf s.cfg.dmemSize ea n v, fun _ => rfl, rfl, rfl, samePipeline_store ..⟩

/-! ## Comparisons as numbers (R177) -/

theorem boolWord_slt (a b : Word) : boolWord (BitVec.slt a b) = truth (a.toInt < b.toInt) := by
  simp [boolWord, truth, BitVec.slt]

theorem boolWord_ult (a b : Word) : boolWord (BitVec.ult a b) = truth (a.toNat < b.toNat) := by
  simp [boolWord, truth, BitVec.ult]

/-! ## Arithmetic and logic (R210 to R252) -/

/-- Settles O7: each result is one write to rd, and its value the integer result. -/
theorem regRegInstructionsComplete : Obligations.RegRegInstructionsComplete := by
  intro s rd rs1 rs2 a b n
  refine ⟨?add, ?sub, ?sll, ?slt, ?sltu, ?xor, ?srl, ?sra, ?or, ?and⟩
  case add => exact writesRegister_of_exec rfl (BitVec.add_def a b) rfl
  case sub => exact writesRegister_of_exec rfl (ofInt_sub_toInt a b).symm rfl
  case sll => exact writesRegister_of_exec rfl (by rw [shiftAmount_eq_mod, shiftLeft_eq_ofNat_mul]) rfl
  case slt => exact writesRegister_of_exec rfl (boolWord_slt a b) rfl
  case sltu => exact writesRegister_of_exec rfl (boolWord_ult a b) rfl
  case srl => exact writesRegister_of_exec rfl (by rw [shiftAmount_eq_mod, ushiftRight_eq_ofNat_div]) rfl
  case sra => exact writesRegister_of_exec rfl (by rw [shiftAmount_eq_mod, sshiftRight_eq_ofInt_div]) rfl
  all_goals exact writesRegister_of_exec rfl rfl rfl

/-- Settles O8: as for the register forms, with the immediate as second operand. -/
theorem regImmInstructionsComplete : Obligations.RegImmInstructionsComplete := by
  intro s rd rs1 imm a n
  refine ⟨?addi, ?slti, ?sltiu, ?xori, ?ori, ?andi, ?slli, ?srli, ?srai⟩
  case addi => exact writesRegister_of_exec rfl (ofInt_add_toInt a imm).symm rfl
  case slti => exact writesRegister_of_exec rfl (boolWord_slt a imm) rfl
  case sltiu => exact writesRegister_of_exec rfl (boolWord_ult a imm) rfl
  case slli => exact writesRegister_of_exec rfl (by rw [shiftAmount_eq_mod, shiftLeft_eq_ofNat_mul]) rfl
  case srli => exact writesRegister_of_exec rfl (by rw [shiftAmount_eq_mod, ushiftRight_eq_ofNat_div]) rfl
  case srai => exact writesRegister_of_exec rfl (by rw [shiftAmount_eq_mod, sshiftRight_eq_ofInt_div]) rfl
  all_goals exact writesRegister_of_exec rfl rfl rfl

/-- Settles O9: LUI's value is the immediate, AUIPC's a sum with its own address. -/
theorem upperImmInstructionsComplete : Obligations.UpperImmInstructionsComplete := fun s _ imm =>
  ⟨writesRegister_of_exec rfl rfl rfl, writesRegister_of_exec rfl (BitVec.add_def s.pc imm) rfl⟩

/-! ## Loads and stores (R260 to R271) -/

theorem load_toNat (s : State) (ea : Word) (n : Width) : (s.load ea n).toNat = bytesAt s ea n.bytes := by
  rw [State.load, bytesAt]
  split
  next inside => rw [memRead_of_inBounds inside, readBytes_toNat_eq_sum _ _ _ n.bytes_le]
  next outside => simp [memRead, inBounds, outside]

theorem load_toNat_lt (s : State) (ea : Word) (n : Width) : (s.load ea n).toNat < 2 ^ (8 * n.bytes) :=
  memRead_toNat_lt ..

theorem sext8_load (s : State) (ea : Word) :
    sext8 (s.load ea .byte) = BitVec.ofInt 32 (signedValue 8 (bytesAt s ea 1)) := by
  rw [← BitVec.ofInt_toInt (x := sext8 _), sext8_toInt _ (load_toNat_lt ..), load_toNat]
  rfl

theorem sext16_load (s : State) (ea : Word) :
    sext16 (s.load ea .half) = BitVec.ofInt 32 (signedValue 16 (bytesAt s ea 2)) := by
  rw [← BitVec.ofInt_toInt (x := sext16 _), sext16_toInt _ (load_toNat_lt ..), load_toNat]
  rfl

theorem load_eq_ofNat (s : State) (ea : Word) (n : Width) : s.load ea n = BitVec.ofNat 32 (bytesAt s ea n.bytes) := by
  rw [← load_toNat, BitVec.ofNat_toNat, BitVec.setWidth_eq]

theorem zext8_load (s : State) (ea : Word) : zext8 (s.load ea .byte) = s.load ea .byte :=
  BitVec.eq_of_toNat_eq ((zext8_toNat _).trans (Nat.mod_eq_of_lt (load_toNat_lt s ea .byte)))

theorem zext16_load (s : State) (ea : Word) : zext16 (s.load ea .half) = s.load ea .half :=
  BitVec.eq_of_toNat_eq ((zext16_toNat _).trans (Nat.mod_eq_of_lt (load_toNat_lt s ea .half)))

/-- Settles O10: the load reads the number its bytes stand for, and each extension keeps or signs it. -/
theorem loadsComplete : Obligations.LoadsComplete := by
  intro s rd rs1 imm ea n
  refine ⟨?lb, ?lh, ?lw, ?lbu, ?lhu⟩
  case lb => exact writesRegister_of_exec rfl (sext8_load s ea) rfl
  case lh => exact writesRegister_of_exec rfl (sext16_load s ea) rfl
  case lw => exact writesRegister_of_exec rfl (load_eq_ofNat s ea .word) rfl
  case lbu => exact writesRegister_of_exec rfl ((zext8_load s ea).trans (load_eq_ofNat s ea .byte)) rfl
  case lhu => exact writesRegister_of_exec rfl ((zext16_load s ea).trans (load_eq_ofNat s ea .half)) rfl

/-- Settles O11: each store is one write of its width. -/
theorem storesComplete : Obligations.StoresComplete := fun _ _ _ _ wf =>
  ⟨storesBytes_of_exec (n := .byte) wf rfl, storesBytes_of_exec (n := .half) wf rfl,
    storesBytes_of_exec (n := .word) wf rfl⟩

/-! ## Control transfer (R281 to R290) -/

/-- Settles O12: a branch moves control by its condition, read as one on numbers. -/
theorem branchesComplete : Obligations.BranchesComplete := by
  intro s rs1 rs2 imm a b taken next
  have target : taken = s.pc + imm := ofInt_add_toInt s.pc imm
  rw [target]
  refine ⟨?beq, ?bne, ?blt, ?bge, ?bltu, ?bgeu⟩
  case beq => exact onlyTransfers_of_exec rfl (if_congr beq_iff_eq rfl rfl)
  case bne => exact onlyTransfers_of_exec rfl (by simp [ite_not, a, b, next])
  case blt => exact onlyTransfers_of_exec rfl (if_congr decide_eq_true_iff rfl rfl)
  case bge => exact onlyTransfers_of_exec rfl (if_congr decide_eq_true_iff rfl rfl)
  case bltu => exact onlyTransfers_of_exec rfl (if_congr decide_eq_true_iff rfl rfl)
  case bgeu => exact onlyTransfers_of_exec rfl (if_congr decide_eq_true_iff rfl rfl)

theorem jalrTarget_eq_ofNat (a imm : Word) :
    jalrTarget a imm = BitVec.ofNat 32 ((a.toNat + imm.toNat) % 2 ^ 32 / 2 * 2) := by
  rw [← BitVec.toNat_add, ← jalrTarget_toNat, BitVec.ofNat_toNat, BitVec.setWidth_eq]

/-- Settles O13: the link is written and control goes to the target, of which JALR's reads the old rs1. -/
theorem jumpsComplete : Obligations.JumpsComplete := fun s _ rs1 imm =>
  ⟨writesRegister_of_exec rfl rfl (ofInt_add_toInt s.pc imm).symm,
    writesRegister_of_exec rfl rfl (jalrTarget_eq_ofNat (s.readReg rs1) imm)⟩

theorem referenceStep_of_rejected {s : State} {r : Rejection} (h : decode (fetchedWord s) = .error r) :
    ∃ t, referenceStep s = .next t ∧ t.pc = s.pc + 4#32 ∧ t.retired = s.retired
      ∧ SameRegisters s t ∧ SameMemory s t ∧ SamePipeline s t := by
  refine ⟨s.skipInvalid, ?_, rfl, rfl, fun _ => rfl, fun _ => rfl, rfl, rfl, rfl, rfl, rfl, rfl⟩
  rw [referenceStep, runSnapshot_eq_seqRun, seqRun_of_rejected h]

/-- Settles O14: a rejected word is skipped, and beyond the image stands the zero word, which is rejected. -/
theorem invalidOnlyAdvancesThePc : Obligations.InvalidOnlyAdvancesThePc := by
  refine ⟨fun s r => referenceStep_of_rejected, fun s beyond => referenceStep_of_rejected (r := .opcode 0#7) ?_⟩
  rw [fetchedWord, ifetch_beyond beyond, decode_zero]

/-! ## What an instruction may change (R54, R188) -/

theorem exec_readReg {i : Instr} {s t : State} (h : exec i s = .next t) {r : Reg} (hr : i.rd ≠ some r) :
    t.readReg r = s.readReg r := by
  obtain ⟨rd, v, npc, hrd, rfl⟩ | ⟨addr, n, v, -, rfl⟩ | ⟨cond, imm, -, rfl⟩ := exec_next_cases h
  · refine (regRead_regWrite s.x rd r v).trans (if_neg fun same => hr ?_)
    rw [hrd, same.1]
  · rfl
  · rfl

theorem exec_retired_samePipeline {i : Instr} {s t : State} (h : exec i s = .next t) :
    t.retired = s.retired + 1 ∧ SamePipeline s t := by
  obtain ⟨rd, v, npc, -, rfl⟩ | ⟨addr, n, v, -, rfl⟩ | ⟨cond, imm, -, rfl⟩ := exec_next_cases h
  · exact ⟨rfl, samePipeline_writeAndRetire ..⟩
  · exact ⟨rfl, samePipeline_store ..⟩
  · exact ⟨rfl, samePipeline_branchIf ..⟩

theorem exec_dmem_of_no_store {i : Instr} {s t : State} (hi : mnemonic i ∉ storeNames) (h : exec i s = .next t) :
    t.dmem = s.dmem := by
  cases i with
  | sb | sh | sw => simp [mnemonic, storeNames] at hi
  | _ =>
    cases h
    rfl

/-- Settles O15: a meaning is a write to rd, a store or a transfer, and a store leaves the bytes outside its own. -/
theorem instructionChangesOnlyItsDestination : Obligations.InstructionChangesOnlyItsDestination := by
  refine fun i s t h => ⟨fun r => exec_readReg h, fun no_store => ?_, ?_, exec_retired_samePipeline h⟩
  · exact sameMemory_of_dmem (exec_dmem_of_no_store no_store h)
  rintro rs1 rs2 imm n (⟨rfl, rfl⟩ | ⟨rfl, rfl⟩ | ⟨rfl, rfl⟩) ea a outside
  · cases h
    exact readByte_memWrite_of_outside _ _ _ .byte _ outside
  · cases h
    exact readByte_memWrite_of_outside _ _ _ .half _ outside
  · cases h
    exact readByte_memWrite_of_outside _ _ _ .word _ outside

/-! ## What an instruction reads (R140) -/

theorem latchOperand_congr {s₁ s₂ : State} {o : Option Reg} (h : ∀ r, o = some r → s₁.readReg r = s₂.readReg r) :
    latchOperand s₁.x o = latchOperand s₂.x o := by
  rcases o with _ | r
  · rfl
  · exact h r rfl

/-- The reference's results depend on the source operands, the program counter, the data memory and its size. -/
theorem seqRun_congr {i : Snapshot} {s₁ s₂ : State} (pc : s₁.pc = s₂.pc) (dmem : s₁.dmem = s₂.dmem)
    (size : s₁.cfg.dmemSize = s₂.cfg.dmemSize) (regs : ∀ r ∈ sources i, s₁.readReg r = s₂.readReg r) :
    (seqRun i s₁).pc = (seqRun i s₂).pc ∧ (seqRun i s₁).dmem = (seqRun i s₂).dmem
      ∧ ((controlSignals i).registerWrite = true → ∀ rd, i.rd = some rd →
        (seqRun i s₁).readReg rd = (seqRun i s₂).readReg rd) := by
  have a : latchOperand s₁.x i.rs1 = latchOperand s₂.x i.rs1 :=
    latchOperand_congr fun r hr => regs r ((mem_sources i r).2 (.inl hr))
  have b : latchOperand s₁.x i.rs2 = latchOperand s₂.x i.rs2 :=
    latchOperand_congr fun r hr => regs r ((mem_sources i r).2 (.inr hr))
  unfold seqRun
  split
  next invalid =>
    have off := controlSignals_none (Option.isNone_iff_eq_none.1 invalid)
    refine ⟨congrArg (· + 4#32) pc, dmem, fun write => ?_⟩
    rw [off] at write
    cases write
  next =>
    simp only [State.load, State.readReg, a, b, pc, dmem, size]
    refine ⟨trivial, trivial, fun write rd hrd => ?_⟩
    rw [if_pos write, if_pos write, hrd, regRead_regWrite, regRead_regWrite]
    by_cases zero : rd = 0
    · simp [zero]
    · simp [zero]

theorem registerWrite_of_rd {j : Instr} {rd : Reg} (h : j.rd = some rd) : (controlRow j).registerWrite = true := by
  have hf := (rd_isSome_iff j).1 (by rw [h]; rfl)
  obtain ⟨-, -, ⟨op, hr⟩ | ⟨op, hr⟩ | hr | hr⟩ | ⟨hs, -⟩ | ⟨hb, -⟩ := controlRow_cases j
  iterate 4
    · rw [hr]
      rfl
  · simp [hs] at hf
  · simp [hb] at hf

/-- Settles O16: the meaning is the reference's run, which reads its source operands and the data memory only. -/
theorem instructionReadsOnlyItsSources : Obligations.InstructionReadsOnlyItsSources := by
  intro i raw s₁ s₂ t₁ t₂ pc dmem size regs h₁ h₂
  rw [exec_eq_seqRun raw] at h₁ h₂
  obtain rfl := Host.Outcome.next.inj h₁
  obtain rfl := Host.Outcome.next.inj h₂
  obtain ⟨same_pc, same_dmem, same_rd⟩ := seqRun_congr pc dmem size regs
  exact ⟨same_pc, same_dmem, fun rd hrd => same_rd (registerWrite_of_rd hrd) rd hrd⟩

end Sys2Proof.Machine
end
